-- ==== Sys2Proof/Word.lean ====
section
/-! DEFINITION. The two sizes of data the spec gives the machine (00_scope.md R107, R110). -/

namespace Sys2Proof

/-- A byte: 8 bits (R107). An address names one byte (R150). -/
abbrev Byte := BitVec 8

/-- A word: 16 bits, the width of a general register, of PC, SP and IR, of an address and of an
instruction (R107). -/
abbrev Word := BitVec 16

end Sys2Proof
end

