-- ==== Sys2Proof/Syntax.lean ====
section
/-! DEFINITION. The sixteen instructions as syntax (30_encoding.md R190): one constructor for each
row of spec/opcode_table.json. `B` is another spelling of BRANCH (R197) and has no constructor. -/

namespace Sys2Proof

/-- The number of a general register, 0 to 7 (10_state.md R122, 30_encoding.md R184). -/
abbrev Reg := Fin 8

/-- An instruction with its operands as the decode phase delivers them. An immediate is the signed
number its field stands for (R189); the ranges are checked by `Instr.wellFormed`. -/
inductive Instr where
  /-- NOP, opcode 0x0, Format 0 (R280). -/
  | nop
  /-- ADD Rd, Rs1, Rs2, opcode 0x1, Format 1 (R211). -/
  | add (rd rs1 rs2 : Reg)
  /-- ADDI Rd, Rd, #imm, opcode 0x2, Format 2 (R212): `rd` is source and destination (R201). -/
  | addi (rd : Reg) (imm : Int)
  /-- SUB Rd, Rs1, Rs2, opcode 0x3, Format 1 (R213). -/
  | sub (rd rs1 rs2 : Reg)
  /-- SUBI Rd, Rd, #imm, opcode 0x4, Format 2 (R214): `rd` is source and destination (R201). -/
  | subi (rd : Reg) (imm : Int)
  /-- AND Rd, Rs1, Rs2, opcode 0x5, Format 1 (R231). -/
  | and (rd rs1 rs2 : Reg)
  /-- OR Rd, Rs1, Rs2, opcode 0x6, Format 1 (R232). -/
  | or (rd rs1 rs2 : Reg)
  /-- XOR Rd, Rs1, Rs2, opcode 0x7, Format 1 (R233). -/
  | xor (rd rs1 rs2 : Reg)
  /-- LOAD Rd, [Rs + off], opcode 0x8, Format 3 (R241). -/
  | load (rd rs : Reg) (off : Int)
  /-- STORE Rd, [Rs + off], opcode 0x9, Format 3 (R242): `rd` names the register stored. -/
  | store (rd rs : Reg) (off : Int)
  /-- LOADI Rd, #imm, opcode 0xA, Format 2 (R243). -/
  | loadi (rd : Reg) (imm : Int)
  /-- BRANCH off, also spelt B, opcode 0xB, Format 4 (R263). -/
  | branch (off : Int)
  /-- BEQ off, opcode 0xC, Format 4 (R264). -/
  | beq (off : Int)
  /-- BNE off, opcode 0xD, Format 4 (R265). -/
  | bne (off : Int)
  /-- BLT off, opcode 0xE, Format 4 (R266). -/
  | blt (off : Int)
  /-- HALT, opcode 0xF, Format 0 (R281). -/
  | halt
  deriving DecidableEq, Repr

end Sys2Proof
end

