-- ==== Sys2Proof/WellFormed.lean ====
section
/-! DEFINITION. Which instruction terms have an encoding: each immediate lies in the range of its
field (30_encoding.md R189). Register numbers are in range by their type (R184). -/

namespace Sys2Proof

/-- `imm9`, 9-bit signed: -256 to +255 (R189, R199). -/
def fitsImm9 (n : Int) : Bool := decide (-256 ≤ n ∧ n ≤ 255)

/-- `off6`, 6-bit signed: -32 to +31 (R189; conflict C9 keeps -32). -/
def fitsOff6 (n : Int) : Bool := decide (-32 ≤ n ∧ n ≤ 31)

/-- `off12`, 12-bit signed: -2048 to +2047 (R189). An odd offset has an encoding (R262); it is the
assembler that rejects it (R198, `Machine.Asm.branchOffset`). -/
def fitsOff12 (n : Int) : Bool := decide (-2048 ≤ n ∧ n ≤ 2047)

/-- The instruction has an encoding. -/
def Instr.wellFormed : Instr → Bool
  | .nop | .halt => true
  | .add _ _ _ | .sub _ _ _ | .and _ _ _ | .or _ _ _ | .xor _ _ _ => true
  | .addi _ n | .subi _ n | .loadi _ n => fitsImm9 n
  | .load _ _ n | .store _ _ n => fitsOff6 n
  | .branch n | .beq n | .bne n | .blt n => fitsOff12 n

end Sys2Proof
end

