-- ==== Sys2Proof/Decode.lean ====
section
/-! DEFINITION. Byte order, bit fields, the decoder and the encoder (30_encoding.md R180 to R193,
20_memory.md R157). -/

namespace Sys2Proof

/-! ## Byte order -/

/-- The word whose byte at the lower address is `lo` and at the higher `hi`: little-endian (R157). -/
def wordOfBytes (lo hi : Byte) : Word := hi ++ lo

/-- `v[7:0]`, the byte stored at the lower address (R157). -/
def lowByte (v : Word) : Byte := v.extractLsb' 0 8

/-- `v[15:8]`, the byte stored at the higher address (R157). -/
def highByte (v : Word) : Byte := v.extractLsb' 8 8

/-! ## Fields of an instruction word -/

/-- IR[15:12] (R181). -/
def opcodeField (w : Word) : BitVec 4 := w.extractLsb' 12 4

/-- The register number in the 3-bit field whose lowest bit is `lo` (R184). -/
def regField (w : Word) (lo : Nat) : Reg := (w.extractLsb' lo 3).toFin

/-- IR[8:0] as a two's complement number (R189). -/
def imm9Field (w : Word) : Int := (w.extractLsb' 0 9).toInt

/-- IR[5:0] as a two's complement number (R189). -/
def off6Field (w : Word) : Int := (w.extractLsb' 0 6).toInt

/-- IR[11:0] as a two's complement number (R189). -/
def off12Field (w : Word) : Int := (w.extractLsb' 0 12).toInt

/-! ## The decoder -/

/-- The decoding algorithm of R191. IR[15:12] alone selects the instruction (R181, R190), every
word decodes (R193), and the unused bits of Formats 0 and 1 take no part (R192). -/
def decode (w : Word) : Instr :=
  match w.getLsbD 15, w.getLsbD 14, w.getLsbD 13, w.getLsbD 12 with
  | false, false, false, false => .nop
  | false, false, false, true => .add (regField w 9) (regField w 6) (regField w 3)
  | false, false, true, false => .addi (regField w 9) (imm9Field w)
  | false, false, true, true => .sub (regField w 9) (regField w 6) (regField w 3)
  | false, true, false, false => .subi (regField w 9) (imm9Field w)
  | false, true, false, true => .and (regField w 9) (regField w 6) (regField w 3)
  | false, true, true, false => .or (regField w 9) (regField w 6) (regField w 3)
  | false, true, true, true => .xor (regField w 9) (regField w 6) (regField w 3)
  | true, false, false, false => .load (regField w 9) (regField w 6) (off6Field w)
  | true, false, false, true => .store (regField w 9) (regField w 6) (off6Field w)
  | true, false, true, false => .loadi (regField w 9) (imm9Field w)
  | true, false, true, true => .branch (off12Field w)
  | true, true, false, false => .beq (off12Field w)
  | true, true, false, true => .bne (off12Field w)
  | true, true, true, false => .blt (off12Field w)
  | true, true, true, true => .halt

/-- Why a list of bytes is not an instruction. No word is illegal (R193), so the one reason is that
fewer than two bytes are there (R180). -/
inductive DecodeError where
  | truncated
  deriving DecidableEq, Repr

/-- Decode the first instruction of a byte sequence, lowest address first, and give back the bytes
after it: two bytes, low byte first (R180). -/
def decodeBytes : List Byte → Except DecodeError (Instr × List Byte)
  | lo :: hi :: rest => .ok (decode (wordOfBytes lo hi), rest)
  | _ => .error .truncated

/-! ## The encoder -/

/-- The 3-bit register field (R184). -/
def regBits (r : Reg) : BitVec 3 := BitVec.ofFin r

/-- Format 0: opcode and twelve unused bits, written as zeros (R188, R192). -/
def format0 (op : BitVec 4) : Word := op ++ 0#12

/-- Format 1: opcode, rd, rs1, rs2 and three unused bits, written as zeros (R183, R192). -/
def format1 (op : BitVec 4) (rd rs1 rs2 : Reg) : Word :=
  op ++ regBits rd ++ regBits rs1 ++ regBits rs2 ++ 0#3

/-- Format 2: opcode, rd, imm9; a literal `n` is encoded as `n mod 512` (R185, R199). -/
def format2 (op : BitVec 4) (rd : Reg) (imm : Int) : Word := op ++ regBits rd ++ BitVec.ofInt 9 imm

/-- Format 3: opcode, rd, rs, off6 (R186). -/
def format3 (op : BitVec 4) (rd rs : Reg) (off : Int) : Word :=
  op ++ regBits rd ++ regBits rs ++ BitVec.ofInt 6 off

/-- Format 4: opcode, off12 (R187). -/
def format4 (op : BitVec 4) (off : Int) : Word := op ++ BitVec.ofInt 12 off

/-- The opcode of each instruction (R190). -/
def Instr.opcode : Instr → BitVec 4
  | .nop => 0x0
  | .add _ _ _ => 0x1
  | .addi _ _ => 0x2
  | .sub _ _ _ => 0x3
  | .subi _ _ => 0x4
  | .and _ _ _ => 0x5
  | .or _ _ _ => 0x6
  | .xor _ _ _ => 0x7
  | .load _ _ _ => 0x8
  | .store _ _ _ => 0x9
  | .loadi _ _ => 0xA
  | .branch _ => 0xB
  | .beq _ => 0xC
  | .bne _ => 0xD
  | .blt _ => 0xE
  | .halt => 0xF

/-- The canonical word of an instruction: the one with zeros in the unused bits (R192). -/
def encode : Instr → Word
  | .nop => format0 0x0
  | .add rd rs1 rs2 => format1 0x1 rd rs1 rs2
  | .addi rd imm => format2 0x2 rd imm
  | .sub rd rs1 rs2 => format1 0x3 rd rs1 rs2
  | .subi rd imm => format2 0x4 rd imm
  | .and rd rs1 rs2 => format1 0x5 rd rs1 rs2
  | .or rd rs1 rs2 => format1 0x6 rd rs1 rs2
  | .xor rd rs1 rs2 => format1 0x7 rd rs1 rs2
  | .load rd rs off => format3 0x8 rd rs off
  | .store rd rs off => format3 0x9 rd rs off
  | .loadi rd imm => format2 0xA rd imm
  | .branch off => format4 0xB off
  | .beq off => format4 0xC off
  | .bne off => format4 0xD off
  | .blt off => format4 0xE off
  | .halt => format0 0xF

/-- The word with the bits its format leaves unused set to zero (R192). -/
def canonical (w : Word) : Word :=
  match decode w with
  | .nop | .halt => w &&& 0xF000
  | .add _ _ _ | .sub _ _ _ | .and _ _ _ | .or _ _ _ | .xor _ _ _ => w &&& 0xFFF8
  | .addi _ _ | .subi _ _ | .loadi _ _ => w
  | .load _ _ _ | .store _ _ _ => w
  | .branch _ | .beq _ | .bne _ | .blt _ => w

/-! ## Words as spec/opcode_table.json numbers them -/

/-- The word whose low `nbits` bits are those of `w` and whose other bits are 0. -/
def tableWord (nbits w : Nat) : Word := BitVec.ofNat 16 (w % 2 ^ nbits)

/-- The instruction the decoder reads from the bits `w`, laid out as the hardware stores them. The
table gives every row 16 bits; more than 16 are no instruction (R180). -/
def decodeTableWord (nbits w : Nat) : Option Instr :=
  if 16 < nbits then none
  else
    match decodeBytes [lowByte (tableWord nbits w), highByte (tableWord nbits w)] with
    | .ok (i, []) => some i
    | _ => none

end Sys2Proof
end

