-- ==== Sys2Proof/Config.lean ====
section
/-! DEFINITION. The free values: what the environment supplies and no rule constrains
(00_scope.md R108, 93_implementation_defined.md U2, U16, U17). They have no body, so a theorem that
mentions one holds whatever its value is. -/

namespace Sys2Proof

/-- `CONSOLE_IN_STREAM` (60_exceptions.md R313): element `k`, counted from 0, answers the read of
CONSOLE_IN number `k`, unless the launch named that element in `State.consoleIn`. Log entry 3. -/
opaque Config.consoleInStream : Nat → Word

/-- `TIMER_VAL_STREAM` (60_exceptions.md R316): element `k`, counted from 0, answers the read of
TIMER_VAL number `k`, unless the launch named that element in `State.timerIn`. Log entry 3. -/
opaque Config.timerValStream : Nat → Word

/-- What the byte at an address reads as when neither `IMAGE` nor a STORE has written it
(93_implementation_defined.md U2: "any value, fixed at launch per byte"). Log entry 2. -/
opaque Config.startByte : Nat → Byte

end Sys2Proof
end

