-- ==== Sys2Proof/Machine/State.lean ====
section
/-! DEFINITION. The state of the machine (10_state.md R138), the reasons a step can stop
(60_exceptions.md R302) and the state right after reset. -/

namespace Sys2Proof.Machine

/-- The spec's faults, complete: the five kinds of R302, each with the information it records. A
fault is the spec's device for a situation the source gives no meaning (R301); all are safe, since
no claim about a program goes through a faulted state. -/
inductive Fault where
  /-- Raised by the fetch phase when PC is odd; records PC (R160). Safe. -/
  | misalignedFetch (pc : Word)
  /-- Raised by the fetch phase when PC is even and inside the I/O window; records PC (R160). Safe. -/
  | fetchFromIo (pc : Word)
  /-- Raised by LOAD and STORE when EA = 0xFFFF; records EA (R158, R159). Safe. -/
  | addressWrap (ea : Word)
  /-- Raised by LOAD and STORE when EA = 0xEFFF; records EA (R158, R159). Safe. -/
  | ioStraddle (ea : Word)
  /-- Raised by LOAD and STORE on a device access no rule defines; records EA and, for a STORE, the
  value (R317). Safe. -/
  | ioUndefined (ea : Word) (value : Option Word)
  deriving DecidableEq, Repr

/-- Why no step is taken although nothing faulted. -/
inductive Refusal where
  /-- Raised by `exec` for an instruction that has no meaning yet; no arm answers it in this model.
  Safe. -/
  | notModelled (mnemonic : String)
  /-- Raised by `step` when `halted = 1`: no step is defined from a halted state (R112, R281, U20).
  Safe. -/
  | halted
  deriving DecidableEq, Repr

/-- The 8-bit FLAGS register, field by field (R130): Z is bit 0, N bit 1, C bit 2, O bit 3, and bits
7:4 are reserved. `Flags.toByte` is the register as one byte. -/
structure Flags where
  z : Bool
  n : Bool
  c : Bool
  o : Bool
  reserved : BitVec 4
  deriving DecidableEq, Repr

/-- One entry of the I/O event record: the address and the full 16-bit value (R137, R310, R311). -/
inductive IoEvent where
  | read (addr value : Word)
  | write (addr value : Word)
  deriving DecidableEq, Repr

/-- Memory outside the I/O window: the bytes that `IMAGE` or a STORE has written, addresses strictly
rising (`Memory.wf`). A byte that is not listed holds no value of its own: reading it gives the free
value `Config.startByte` (log entry 2). -/
abbrev Memory := List Host.Cell

/-- Everything the spec gives the machine (R138), and the four fields of the model's own that hold
the input streams as plain data (log entry 3). -/
structure State where
  /-- R0 to R7 (R120). -/
  regs : Vector Word 8
  /-- Program counter: a byte address (R124). -/
  pc : Word
  /-- Stack pointer: no instruction reads or writes it (R128). -/
  sp : Word
  /-- Instruction register: the word of the instruction last fetched (R129). -/
  ir : Word
  /-- The status register (R130). -/
  flags : Flags
  /-- The hidden run state (R136). -/
  halted : Bool
  /-- The fault mark: none, or the fault that stopped the machine (R301). -/
  faultMark : Option Fault
  /-- The bytes outside the I/O window (R150, R154). -/
  mem : Memory
  /-- The I/O event record, oldest first (R137). -/
  events : List IoEvent
  /-- How many reads of CONSOLE_IN have been answered: the index of the next draw (R313). -/
  consoleReads : Nat
  /-- How many reads of TIMER_VAL have been answered: the index of the next draw (R316). -/
  timerReads : Nat
  /-- The first elements of `CONSOLE_IN_STREAM`, as far as the launch names them (R108). -/
  consoleIn : List Word
  /-- The first elements of `TIMER_VAL_STREAM`, as far as the launch names them (R108). -/
  timerIn : List Word
  deriving DecidableEq, Repr

/-- The machine right after reset. The spec states `halted = 0`, no fault, an empty event record
(R138, R332). It leaves the registers, FLAGS and `ENTRY_PC` open: zero is the model's choice (log
entry 1; `ENTRY_PC = 0` is the convention of R331), and `State.launch` takes any other values. No
byte of memory is listed (R333). -/
def State.reset : State where
  regs := Vector.replicate 8 0#16
  pc := 0#16
  sp := 0#16
  ir := 0#16
  flags := { z := false, n := false, c := false, o := false, reserved := 0#4 }
  halted := false
  faultMark := none
  mem := []
  events := []
  consoleReads := 0
  timerReads := 0
  consoleIn := []
  timerIn := []

end Sys2Proof.Machine
end

