-- ==== Sys2Proof/Machine/AddressMap.lean ====
section
/-! DEFINITION. The address map and the device table (20_memory.md R153, R155). -/

namespace Sys2Proof.Machine

/-- The three regions of the memory map (R153). -/
inductive Region where
  | ram
  | ioWindow
  | stack
  deriving DecidableEq, Repr

/-- The address lies in the I/O window, 0xF000 to 0xF0FF (R155). -/
abbrev InWindow (a : Word) : Prop := 0xF000 ≤ a.toNat ∧ a.toNat ≤ 0xF0FF

/-- The address names a byte of plain storage: inside the 64 KB space and outside the I/O window,
which holds none (R150, R154, R155). -/
abbrev IsStorage (a : Nat) : Prop := a < 0x10000 ∧ ¬ (0xF000 ≤ a ∧ a ≤ 0xF0FF)

/-- The region an address belongs to (R153). -/
def regionOf (a : Word) : Region :=
  if a.toNat < 0xF000 then .ram else if a.toNat ≤ 0xF0FF then .ioWindow else .stack

/-- The four device registers (R155). -/
inductive Device where
  | consoleOut
  | consoleIn
  | timerCtrl
  | timerVal
  deriving DecidableEq, Repr

/-- The device register an address of the window selects; the address alone selects it, and the
other 252 addresses select none (R155, R161). -/
def deviceAt (a : Word) : Option Device :=
  if a = 0xF000#16 then some .consoleOut
  else if a = 0xF001#16 then some .consoleIn
  else if a = 0xF002#16 then some .timerCtrl
  else if a = 0xF003#16 then some .timerVal
  else none

end Sys2Proof.Machine
end

