-- ==== Sys2Proof/Machine/Memory.lean ====
section
/-! DEFINITION. Memory as a list of cells in one canonical form (20_memory.md R154). -/

namespace Sys2Proof.Machine

/-- The byte the list holds for an address, if it holds one. -/
def Memory.lookup : Memory → Nat → Option Byte
  | [], _ => none
  | (k, b) :: m, a => if a = k then some b else Memory.lookup m a

/-- Write one byte, keeping the addresses rising: "each byte holds the last value stored to it"
(R154). -/
def Memory.insert : Memory → Nat → Byte → Memory
  | [], a, v => [(a, v)]
  | (k, b) :: m, a, v =>
    if a < k then (a, v) :: (k, b) :: m
    else if a = k then (a, v) :: m
    else (k, b) :: Memory.insert m a v

/-- What the byte at an address reads as: the byte listed, else the free value fixed at launch for
that address (R333, U2). Log entry 2. -/
def Memory.byteAt (m : Memory) (a : Nat) : Byte := (m.lookup a).getD (Config.startByte a)

/-- The canonical form: addresses strictly rising, each one an address of plain storage. An unlisted
address holds no value, so no entry can equal it. -/
def Memory.wf (m : Memory) : Bool :=
  decide (m.Pairwise fun p q => p.1 < q.1) && m.all fun c => decide (IsStorage c.1)

/-- The host places a byte: only the RAM and stack regions take one; `IMAGE` has no bytes in the
I/O window (R333, R340). -/
def Memory.place (m : Memory) (a : Nat) (v : Byte) : Memory :=
  if IsStorage a then m.insert a v else m

end Sys2Proof.Machine
end

