-- ==== Sys2Proof/Machine/Ops.lean ====
section
/-! DEFINITION. The named operations over registers, memory and the devices, the fetch phase, and
the spec's fault as one shared operation. -/

namespace Sys2Proof.Machine

/-- What a step of this machine answers. -/
abbrev Outcome := Host.Outcome State Fault Refusal

/-! ## Registers -/

/-- `x[i]` (R111). No register is hardwired (R121). -/
def readReg (s : State) (i : Reg) : Word := s.regs[i.val]

/-- `x[i] <- v` (R111). No register is hardwired (R121). -/
def writeReg (s : State) (i : Reg) (v : Word) : State := { s with regs := s.regs.set i.val v }

/-- Write a result to a register and the status register with it (R133). -/
def writeResult (s : State) (rd : Reg) (r : Word) (f : Flags) : State :=
  { writeReg s rd r with flags := f }

/-! ## Faults: the spec's own stop, in the place of a trap

The hardware has no exceptions, so there is no entry and no return (R300, R304, R305). -/

/-- `raise Fault(kind, info)`: the step is abandoned and writes nothing, so the answer carries no
state; the machine stands in `faultedState` (R301). -/
def raiseFault (f : Fault) : Outcome := .fault f

/-- The faulted state: as before the step, with the fault mark set (R301). -/
def faultedState (s : State) (f : Fault) : State := { s with faultMark := some f }

/-- The state the machine stands in once a step from `s` has answered `o`: a faulting step leaves
`faultedState`, and where no step is taken nothing changes (R112, R301). -/
def standsAfter (s : State) : Outcome → State
  | .next t => t
  | .fault f => faultedState s f
  | .refused _ => s

/-! ## Devices (R310 to R317) -/

/-- Append to the I/O event record (R137, R310). -/
def recordEvent (s : State) (e : IoEvent) : State := { s with events := s.events ++ [e] }

/-- Element `k` of `CONSOLE_IN_STREAM`: as the launch names it, else a free value (R313). -/
def consoleElement (s : State) (k : Nat) : Word :=
  (s.consoleIn[k]?).getD (Config.consoleInStream k)

/-- Element `k` of `TIMER_VAL_STREAM`: as the launch names it, else a free value (R316). -/
def timerElement (s : State) (k : Nat) : Word := (s.timerIn[k]?).getD (Config.timerValStream k)

/-- `IORead(a)`: a read of CONSOLE_IN or of TIMER_VAL takes the next element of its stream and is
recorded; every other read has no meaning (R310, R313, R316, R317). -/
def ioRead (s : State) (a : Word) : Except Fault (Word × State) :=
  match deviceAt a with
  | some .consoleIn =>
    let v := consoleElement s s.consoleReads
    .ok (v, { recordEvent s (.read a v) with consoleReads := s.consoleReads + 1 })
  | some .timerVal =>
    let v := timerElement s s.timerReads
    .ok (v, { recordEvent s (.read a v) with timerReads := s.timerReads + 1 })
  | some .consoleOut | some .timerCtrl | none => .error (.ioUndefined a none)

/-- `IOWrite(a, v)`: a write of CONSOLE_OUT, of TIMER_VAL, or of 0 or 1 to TIMER_CTRL is recorded;
every other write has no meaning (R311, R312, R315, R316, R317). -/
def ioWrite (s : State) (a v : Word) : Except Fault State :=
  match deviceAt a with
  | some .consoleOut => .ok (recordEvent s (.write a v))
  | some .timerCtrl =>
    if v = 0#16 ∨ v = 1#16 then .ok (recordEvent s (.write a v))
    else .error (.ioUndefined a (some v))
  | some .timerVal => .ok (recordEvent s (.write a v))
  | some .consoleIn | none => .error (.ioUndefined a (some v))

/-! ## Memory (R157 to R160) -/

/-- `mem[a]` (R111), for an address of plain storage. -/
def readByte (s : State) (a : Nat) : Byte := s.mem.byteAt a

/-- `mem[a] | (mem[a + 1] << 8)` (R158, R160). -/
def readWord (s : State) (a : Word) : Word :=
  wordOfBytes (readByte s a.toNat) (readByte s (a.toNat + 1))

/-- `mem[a] <- v[7:0]; mem[a + 1] <- v[15:8]`, in one step (R159). -/
def writeWord (s : State) (a v : Word) : State :=
  { s with mem := (s.mem.insert a.toNat (lowByte v)).insert (a.toNat + 1) (highByte v) }

/-- `MemRead(a, 2)` (R158): the value read and the state after it, which a device read changes. -/
def memRead (s : State) (a : Word) : Except Fault (Word × State) :=
  if a = 0xFFFF#16 then .error (.addressWrap a)
  else if a = 0xEFFF#16 then .error (.ioStraddle a)
  else if InWindow a then ioRead s a
  else .ok (readWord s a, s)

/-- `MemWrite(a, 2, v)` (R159). -/
def memWrite (s : State) (a v : Word) : Except Fault State :=
  if a = 0xFFFF#16 then .error (.addressWrap a)
  else if a = 0xEFFF#16 then .error (.ioStraddle a)
  else if InWindow a then ioWrite s a v
  else .ok (writeWord s a v)

/-- `FetchRead(a)` (R160): the alignment test comes first (R303). -/
def fetchRead (s : State) (a : Word) : Except Fault Word :=
  if a.toNat % 2 = 1 then .error (.misalignedFetch a)
  else if InWindow a then .error (.fetchFromIo a)
  else .ok (readWord s a)

/-- The rest of the fetch phase: `IR <- w`, `PC <- PC +_16 2` (R112, R126). -/
def afterFetch (s : State) (w : Word) : State := { s with ir := w, pc := s.pc + 2#16 }

/-- The host lays a word where the fetch phase reads next, low byte first (R180, R340). -/
def placeAtPc (s : State) (w : Word) : State :=
  { s with mem := (s.mem.place s.pc.toNat (lowByte w)).place (s.pc.toNat + 1) (highByte w) }

/-! ## What an observer reads off the event record -/

/-- The character of a 16-bit console value: `v[7:0]` (R312, R313). -/
def charOf (v : Word) : Byte := lowByte v

/-- The values read from the device address `a`, in program order. -/
def readsFrom (a : Word) (es : List IoEvent) : List Word :=
  es.filterMap fun
    | .read b v => if b = a then some v else none
    | .write _ _ => none

/-- The values written to the device address `a`, in program order. -/
def writesTo (a : Word) (es : List IoEvent) : List Word :=
  es.filterMap fun
    | .write b v => if b = a then some v else none
    | .read _ _ => none

/-- The console output of a run: the characters of all writes to 0xF000 in program order (R312). -/
def consoleOutput (es : List IoEvent) : List Byte := (writesTo 0xF000#16 es).map charOf

/-- Whether the last write to TIMER_CTRL turned the timer on; `none` before the first, since the
state of the timer at the start is not stated (R315). -/
def timerSetting (es : List IoEvent) : Option Bool :=
  (writesTo 0xF002#16 es).getLast?.map fun v => decide (v = 1#16)

end Sys2Proof.Machine
end

