-- ==== Sys2Proof/Machine/Operands.lean ====
section
/-! DEFINITION. The operand forms: the five addressing modes of 30_encoding.md R196. Register Direct
is `readReg`; the other four are here. -/

namespace Sys2Proof.Machine

/-- Immediate: the signed constant as a 16-bit two's complement value, `sext_16` of its field
(R111, R189). -/
def immWord (n : Int) : Word := BitVec.ofInt 16 n

/-- Indexed, and Register Indirect when the offset is 0: `EA <- x[rs] +_16 sext_16(off6)`, a byte
count, modulo 2^16 (R240). -/
def effectiveAddress (s : State) (rs : Reg) (off : Int) : Word := readReg s rs + immWord off

/-- PC-Relative: the offset is a byte count added to the PC that the fetch phase has advanced,
modulo 2^16 (R260, R261). -/
def branchTarget (pc : Word) (off : Int) : Word := pc + immWord off

end Sys2Proof.Machine
end

