-- ==== Sys2Proof/Machine/Flags.lean ====
section
/-! DEFINITION. The flag computations and the branch conditions (10_state.md R130 to R134). -/

namespace Sys2Proof.Machine

/-- Z: 1 if the result is 0x0000, else 0 (R133). -/
def zeroOf (r : Word) : Bool := decide (r = 0#16)

/-- N: bit 15 of the result (R133). -/
def negativeOf (r : Word) : Bool := r.getLsbD 15

/-- The exact sum, 0 to 131070 (R211). -/
def exactSum (a b : Word) : Nat := a.toNat + b.toNat

/-- The sum's low 16 bits, `t[15:0]` (R210, R211). -/
def sumOf (a b : Word) : Word := BitVec.ofNat 16 (exactSum a b)

/-- C: the carry out of bit 15, `t[16]` (R133, R211). -/
def carryOf (a b : Word) : Bool := (exactSum a b).testBit 16

/-- The difference modulo 2^16 (R210, R213). No borrow is recorded. -/
def differenceOf (a b : Word) : Word := a - b

/-- Assign Z and N from the result; C, O and the reserved bits keep their value (R132, R133). -/
def assignZN (f : Flags) (r : Word) : Flags := { f with z := zeroOf r, n := negativeOf r }

/-- Assign Z, N and C from an addition; O and the reserved bits keep their value (R132, R133). -/
def assignZNC (f : Flags) (a b : Word) : Flags := { assignZN f (sumOf a b) with c := carryOf a b }

/-- BEQ is taken when Z = 1 (R134). -/
def takenEq (f : Flags) : Bool := f.z

/-- BNE is taken when Z = 0 (R134). -/
def takenNe (f : Flags) : Bool := !f.z

/-- BLT is taken when N = 1, and tests N alone (R134, R266). -/
def takenLt (f : Flags) : Bool := f.n

/-- FLAGS as the 8-bit register (R130): Z is bit 0, N bit 1, C bit 2, O bit 3, reserved bits 7:4. -/
def Flags.toByte (f : Flags) : Byte :=
  f.reserved ++ BitVec.ofBool f.o ++ BitVec.ofBool f.c ++ BitVec.ofBool f.n ++ BitVec.ofBool f.z

/-- The fields of an 8-bit FLAGS value (R130). -/
def Flags.ofByte (b : Byte) : Flags :=
  { z := b.getLsbD 0, n := b.getLsbD 1, c := b.getLsbD 2, o := b.getLsbD 3
    reserved := b.extractLsb' 4 4 }

end Sys2Proof.Machine
end

