-- ==== Sys2Proof/Machine/Arithmetic.lean ====
section
/-! DEFINITION. ADD, ADDI, SUB, SUBI (40_arithmetic.md). PC has been advanced by the fetch phase;
both sources are read before the destination is written (10_state.md R122). -/

namespace Sys2Proof.Machine

/-- ADD: `x[rd] <- x[rs1] +_16 x[rs2]`; Z, N, C (R211). -/
def execAdd (rd rs1 rs2 : Reg) (s : State) : Outcome :=
  let a := readReg s rs1
  let b := readReg s rs2
  .next (writeResult s rd (sumOf a b) (assignZNC s.flags a b))

/-- ADDI: `x[rd] <- x[rd] +_16 sext_16(imm9)`; Z, N (R212). -/
def execAddi (rd : Reg) (imm : Int) (s : State) : Outcome :=
  let r := sumOf (readReg s rd) (immWord imm)
  .next (writeResult s rd r (assignZN s.flags r))

/-- SUB: `x[rd] <- x[rs1] -_16 x[rs2]`; Z, N (R213). -/
def execSub (rd rs1 rs2 : Reg) (s : State) : Outcome :=
  let r := differenceOf (readReg s rs1) (readReg s rs2)
  .next (writeResult s rd r (assignZN s.flags r))

/-- SUBI: `x[rd] <- x[rd] -_16 sext_16(imm9)`; Z, N (R214). -/
def execSubi (rd : Reg) (imm : Int) (s : State) : Outcome :=
  let r := differenceOf (readReg s rd) (immWord imm)
  .next (writeResult s rd r (assignZN s.flags r))

end Sys2Proof.Machine
end

