-- ==== Sys2Proof/Machine/ControlFlow.lean ====
section
/-! DEFINITION. BRANCH, BEQ, BNE, BLT (43_control_flow.md). PC already holds the address of the
branch plus 2. An odd target is written as computed; the next fetch faults (R262). -/

namespace Sys2Proof.Machine

/-- `PC <- PC +_16 sext_16(off12)` when the condition holds, else nothing. -/
def branchIf (taken : Bool) (off : Int) (s : State) : Outcome :=
  .next (if taken then { s with pc := branchTarget s.pc off } else s)

/-- BRANCH: always taken (R263). -/
def execBranch (off : Int) (s : State) : Outcome := branchIf true off s

/-- BEQ: taken when Z = 1 (R264). -/
def execBeq (off : Int) (s : State) : Outcome := branchIf (takenEq s.flags) off s

/-- BNE: taken when Z = 0 (R265). -/
def execBne (off : Int) (s : State) : Outcome := branchIf (takenNe s.flags) off s

/-- BLT: taken when N = 1 (R266). -/
def execBlt (off : Int) (s : State) : Outcome := branchIf (takenLt s.flags) off s

end Sys2Proof.Machine
end

