-- ==== Sys2Proof/Machine/Logical.lean ====
section
/-! DEFINITION. AND, OR, XOR (41_logical.md R230): bit by bit on 16 bits; Z and N are assigned, C and
O keep their value. -/

namespace Sys2Proof.Machine

/-- AND: `x[rd] <- x[rs1] & x[rs2]`; Z, N (R231). -/
def execAnd (rd rs1 rs2 : Reg) (s : State) : Outcome :=
  let r := readReg s rs1 &&& readReg s rs2
  .next (writeResult s rd r (assignZN s.flags r))

/-- OR: `x[rd] <- x[rs1] | x[rs2]`; Z, N (R232). -/
def execOr (rd rs1 rs2 : Reg) (s : State) : Outcome :=
  let r := readReg s rs1 ||| readReg s rs2
  .next (writeResult s rd r (assignZN s.flags r))

/-- XOR: `x[rd] <- x[rs1] ^ x[rs2]`; Z, N (R233). -/
def execXor (rd rs1 rs2 : Reg) (s : State) : Outcome :=
  let r := readReg s rs1 ^^^ readReg s rs2
  .next (writeResult s rd r (assignZN s.flags r))

end Sys2Proof.Machine
end

