-- ==== Sys2Proof/Machine/MemoryInstructions.lean ====
section
/-! DEFINITION. LOAD, STORE, LOADI (42_memory_instructions.md). No flag is written (R132). -/

namespace Sys2Proof.Machine

/-- LOAD: `x[rd] <- MemRead(EA, 2)`; a device read when EA lies in the I/O window (R241). -/
def execLoad (rd rs : Reg) (off : Int) (s : State) : Outcome :=
  match memRead s (effectiveAddress s rs off) with
  | .error f => raiseFault f
  | .ok (v, t) => .next (writeReg t rd v)

/-- STORE: `MemWrite(EA, 2, x[rd])`; a device write when EA lies in the I/O window (R242). -/
def execStore (rd rs : Reg) (off : Int) (s : State) : Outcome :=
  match memWrite s (effectiveAddress s rs off) (readReg s rd) with
  | .error f => raiseFault f
  | .ok t => .next t

/-- LOADI: `x[rd] <- sext_16(imm9)`; no data access (R243). -/
def execLoadi (rd : Reg) (imm : Int) (s : State) : Outcome := .next (writeReg s rd (immWord imm))

end Sys2Proof.Machine
end

