-- ==== Sys2Proof/Machine/Special.lean ====
section
/-! DEFINITION. NOP and HALT (44_special.md). -/

namespace Sys2Proof.Machine

/-- NOP: nothing beyond the fetch phase (R280). -/
def execNop (s : State) : Outcome := .next s

/-- HALT: `halted <- 1`; everything else keeps its value (R281). -/
def execHalt (s : State) : Outcome := .next { s with halted := true }

end Sys2Proof.Machine
end

