-- ==== Sys2Proof/Machine/Dispatch.lean ====
section
/-! DEFINITION. The execute phase: one arm for each instruction (30_encoding.md R190). -/

namespace Sys2Proof.Machine

def exec (i : Instr) (s : State) : Host.Outcome State Fault Refusal :=
  match i with
  | .nop => Sys2Proof.Machine.execNop s
  | .add rd rs1 rs2 => Sys2Proof.Machine.execAdd rd rs1 rs2 s
  | .addi rd imm => Sys2Proof.Machine.execAddi rd imm s
  | .sub rd rs1 rs2 => Sys2Proof.Machine.execSub rd rs1 rs2 s
  | .subi rd imm => Sys2Proof.Machine.execSubi rd imm s
  | .and rd rs1 rs2 => Sys2Proof.Machine.execAnd rd rs1 rs2 s
  | .or rd rs1 rs2 => Sys2Proof.Machine.execOr rd rs1 rs2 s
  | .xor rd rs1 rs2 => Sys2Proof.Machine.execXor rd rs1 rs2 s
  | .load rd rs off => Sys2Proof.Machine.execLoad rd rs off s
  | .store rd rs off => Sys2Proof.Machine.execStore rd rs off s
  | .loadi rd imm => Sys2Proof.Machine.execLoadi rd imm s
  | .branch off => Sys2Proof.Machine.execBranch off s
  | .beq off => Sys2Proof.Machine.execBeq off s
  | .bne off => Sys2Proof.Machine.execBne off s
  | .blt off => Sys2Proof.Machine.execBlt off s
  | .halt => Sys2Proof.Machine.execHalt s

end Sys2Proof.Machine
end

