-- ==== Sys2Proof/Machine/Step.lean ====
section
/-! DEFINITION. One step of the machine: the whole execution cycle for one instruction
(00_scope.md R112). -/

namespace Sys2Proof.Machine

/-- One step (R112). A halted machine takes none (R281); a faulted one takes none either and stays
in its fault (R301). Otherwise fetch, decode, execute. -/
def step (s : State) : Host.Outcome State Fault Refusal :=
  if s.halted then .refused .halted
  else
    match s.faultMark with
    | some f => .fault f
    | none =>
      match fetchRead s s.pc with
      | .error f => raiseFault f
      | .ok w => exec (decode w) (afterFetch s w)

/-- The state with the instruction of bits `w` at PC, where the next step fetches it. It stands for
the host's load of a program (R340). -/
def State.withFetchWord (s : State) (nbits w : Nat) : State := placeAtPc s (tableWord nbits w)

end Sys2Proof.Machine
end

