-- ==== Sys2Proof/Machine/Launch.lean ====
section
/-! DEFINITION. The launch: the start state as a function of the parameters the spec leaves open
(00_scope.md R108, 70_reset_and_hazards.md R330 to R333, R340). -/

namespace Sys2Proof.Machine

/-- The parameters of a launch: `ENTRY_PC`, `IMAGE`, as many elements of the two input streams as the
host names, and the unspecified start values of the registers (R331, R332, R333). -/
structure Launch where
  entryPc : Word
  image : List Host.Cell
  consoleIn : List Word
  timerIn : List Word
  regs : Vector Word 8
  sp : Word
  ir : Word
  flags : Flags
  deriving DecidableEq, Repr

/-- The host loads `IMAGE` into the RAM and stack regions, cell by cell (R333, R340). -/
def loadImage (image : List Host.Cell) : Memory :=
  image.foldl (fun m c => m.place c.1 c.2) []

/-- The start state (R330): PC is `ENTRY_PC`, the registers hold what the launch says, `halted = 0`,
no fault is marked and the event record is empty. -/
def State.launch (l : Launch) : State where
  regs := l.regs
  pc := l.entryPc
  sp := l.sp
  ir := l.ir
  flags := l.flags
  halted := false
  faultMark := none
  mem := loadImage l.image
  events := []
  consoleReads := 0
  timerReads := 0
  consoleIn := l.consoleIn
  timerIn := l.timerIn

/-- The bytes of a list of instruction words at an address, low byte first (R157). -/
def imageOfWords : Nat → List Word → List Host.Cell
  | _, [] => []
  | a, w :: ws => (a, lowByte w) :: (a + 1, highByte w) :: imageOfWords (a + 2) ws

/-- The state the machine stands in after at most `k` steps, a faulted or halted one included. -/
def stateAfter : Nat → State → State
  | 0, s => s
  | k + 1, s => stateAfter k (standsAfter s (step s))

end Sys2Proof.Machine
end

