-- ==== Sys2Proof/Machine/Assembler.lean ====
section
/-! DEFINITION. The assembler syntax (30_encoding.md R194 to R202): from lines of text to words. It
fixes how listings map to words and has no part in a step of the machine. What the source leaves
undefined is refused (R202, U23; log entry 6), but for the points of log entry 16. -/

namespace Sys2Proof.Machine.Asm

/-- Why a text is not assembled (R198, R199, R201, U23). -/
inductive AsmError where
  | badCharacter (c : Char)
  | unknownMnemonic
  | badOperands
  | sourceNotDestination
  | immediateOutOfRange
  | unknownLabel
  | oddOffset
  | badLabel
  | duplicateLabel
  deriving DecidableEq, Repr

/-- The mnemonics, in capitals, `B` being another spelling of BRANCH (R190, R197). -/
inductive Mnemonic where
  | NOP | ADD | ADDI | SUB | SUBI | AND | OR | XOR | LOAD | STORE | LOADI | BRANCH | B | BEQ | BNE
  | BLT | HALT
  deriving DecidableEq, Repr

/-- The spelling of each mnemonic (R195). -/
def spellings : List (List Char × Mnemonic) :=
  [("NOP".toList, .NOP), ("ADD".toList, .ADD), ("ADDI".toList, .ADDI), ("SUB".toList, .SUB),
    ("SUBI".toList, .SUBI), ("AND".toList, .AND), ("OR".toList, .OR), ("XOR".toList, .XOR),
    ("LOAD".toList, .LOAD), ("STORE".toList, .STORE), ("LOADI".toList, .LOADI),
    ("BRANCH".toList, .BRANCH), ("B".toList, .B), ("BEQ".toList, .BEQ), ("BNE".toList, .BNE),
    ("BLT".toList, .BLT), ("HALT".toList, .HALT)]

/-- A token of a line (R194). -/
inductive Token where
  | word (cs : List Char)
  | hash
  | comma
  | colon
  | leftBracket
  | rightBracket
  | plus
  | minus
  deriving DecidableEq, Repr

/-- The characters of names and numbers: letters, digits, underscore. -/
def isWordChar (c : Char) : Bool := c.isAlphanum || c == '_'

/-- The token of a punctuation character (R194, R195). -/
def punctuation : Char → Option Token
  | '#' => some .hash
  | ',' => some .comma
  | ':' => some .colon
  | '[' => some .leftBracket
  | ']' => some .rightBracket
  | '+' => some .plus
  | '-' => some .minus
  | _ => none

/-- The pending word, if there is one, before the tokens that follow it. -/
def flush (acc : List Char) (ts : List Token) : List Token :=
  if acc.isEmpty then ts else .word acc :: ts

/-- The tokens of a line; a semicolon starts a comment that runs to the end of the line (R194). White
space between two tokens is free: DESIGN CHOICE, so `# 10`, `BRANCH - 4`, `start :` and `[R1+4]` are
read like `#10`, `BRANCH -4`, `start:` and `[R1 + 4]` (log entry 16). -/
def tokenize : List Char → List Char → Except AsmError (List Token)
  | acc, [] => .ok (flush acc [])
  | acc, c :: cs =>
    if c == ';' then .ok (flush acc [])
    else if isWordChar c then tokenize (acc ++ [c]) cs
    else if c.isWhitespace then (tokenize [] cs).map (flush acc)
    else
      match punctuation c with
      | some t => (tokenize [] cs).map fun ts => flush acc (t :: ts)
      | none => .error (.badCharacter c)

/-- A register name, R0 to R7 (R194). -/
def parseReg : List Char → Option Reg
  | ['R', '0'] => some 0
  | ['R', '1'] => some 1
  | ['R', '2'] => some 2
  | ['R', '3'] => some 3
  | ['R', '4'] => some 4
  | ['R', '5'] => some 5
  | ['R', '6'] => some 6
  | ['R', '7'] => some 7
  | _ => none

/-- The value of a digit in a base up to 16. -/
def digitValue (base : Nat) (c : Char) : Option Nat :=
  let v :=
    if c.isDigit then c.toNat - '0'.toNat
    else if 'a' ≤ c ∧ c ≤ 'f' then c.toNat - 'a'.toNat + 10
    else if 'A' ≤ c ∧ c ≤ 'F' then c.toNat - 'A'.toNat + 10
    else base
  if v < base then some v else none

/-- The number a list of digits stands for, after the number read so far. -/
def parseDigits (base : Nat) : Nat → List Char → Option Nat
  | n, [] => some n
  | n, c :: cs => (digitValue base c).bind fun d => parseDigits base (base * n + d) cs

/-- A decimal or `0x` hexadecimal literal (R199). A hexadecimal digit is read in either case, the `x`
in lower case only, and leading zeros count for nothing: DESIGN CHOICE (log entry 16). -/
def parseNumber : List Char → Option Nat
  | '0' :: 'x' :: c :: cs => parseDigits 16 0 (c :: cs)
  | c :: cs => parseDigits 10 0 (c :: cs)
  | [] => none

/-- A label: letters and underscore, the characters of the source's examples (R202). -/
def isLabel (cs : List Char) : Bool := !cs.isEmpty && cs.all fun c => c.isAlpha || c == '_'

/-- An operand (R194, R195, R200). -/
inductive Operand where
  | reg (r : Reg)
  | imm (n : Int)
  | mem (rs : Reg) (off : Int)
  | number (n : Int)
  | label (name : List Char)
  deriving DecidableEq, Repr

/-- One operand: `Rn`, `#n`, `#-n`, `[Rn]`, `[Rn + n]`, `[Rn - n]`, a label, or a number that may be
negative (R194, R195, R200). Each `n` may be decimal or hexadecimal, with or without a sign before it:
DESIGN CHOICE where the source shows decimal only (log entry 16). -/
def parseOperand : List Token → Option Operand
  | [.hash, .word n] => (parseNumber n).map fun k => .imm k
  | [.hash, .minus, .word n] => (parseNumber n).map fun k => .imm (-k)
  | [.leftBracket, .word r, .rightBracket] => (parseReg r).map fun s => .mem s 0
  | [.leftBracket, .word r, .plus, .word n, .rightBracket] =>
    (parseReg r).bind fun s => (parseNumber n).map fun k => .mem s k
  | [.leftBracket, .word r, .minus, .word n, .rightBracket] =>
    (parseReg r).bind fun s => (parseNumber n).map fun k => .mem s (-k)
  | [.minus, .word n] => (parseNumber n).map fun k => .number (-k)
  | [.word w] =>
    match parseReg w, parseNumber w with
    | some r, _ => some (.reg r)
    | none, some k => some (.number k)
    | none, none => if isLabel w then some (.label w) else none
  | _ => none

/-- The operands of a line, separated by commas (R194). -/
def parseOperands (acc : List Token) : List Token → Option (List Operand)
  | [] => (parseOperand acc).map fun o => [o]
  | .comma :: ts => (parseOperand acc).bind fun o => (parseOperands [] ts).map fun os => o :: os
  | t :: ts => parseOperands (acc ++ [t]) ts

/-- A line of source (R194). -/
inductive Line where
  | blank
  | label (name : List Char)
  | instr (m : Mnemonic) (ops : List Operand)
  deriving DecidableEq, Repr

/-- A line that has been cut into tokens: empty, a label on a line of its own, or one instruction
(R194). A label may be spelt like a mnemonic, as in `B:` and then `BRANCH B`: DESIGN CHOICE, R202
leaves it open (log entry 16). -/
def parseTokens : List Token → Except AsmError Line
  | [] => .ok .blank
  | [.word n, .colon] => if isLabel n then .ok (.label n) else .error .badLabel
  | [.word m] =>
    match spellings.lookup m with
    | some k => .ok (.instr k [])
    | none => .error .unknownMnemonic
  | .word m :: ts =>
    match spellings.lookup m, parseOperands [] ts with
    | some k, some os => .ok (.instr k os)
    | some _, none => .error .badOperands
    | none, _ => .error .unknownMnemonic
  | _ => .error .badOperands

/-- Parse one line of text (R194). -/
def parseLine (cs : List Char) : Except AsmError Line := (tokenize [] cs).bind parseTokens

/-- The labels and the addresses they name: each names the next instruction's address (R194), or the
end of the program where no instruction follows. R202 leaves open whether two labels may name one
address: DESIGN CHOICE, they may (log entry 16). -/
def labelTable : Nat → List Line → List (List Char × Nat)
  | _, [] => []
  | a, .blank :: ls => labelTable a ls
  | a, .label n :: ls => (n, a) :: labelTable a ls
  | a, .instr _ _ :: ls => labelTable (a + 2) ls

/-- Accept an instruction whose immediate fits its field; never truncate (R199). -/
def inRange (i : Instr) : Except AsmError Instr :=
  if i.wellFormed then .ok i else .error .immediateOutOfRange

/-- The Rs operand of ADDI and SUBI must name the same register as Rd (R201). -/
def sameRegister (rd rs : Reg) (i : Instr) : Except AsmError Instr :=
  if rs = rd then inRange i else .error .sourceNotDestination

/-- The offset a branch operand stands for: for a label, its address less the address after the
branch; a number is the offset itself. Odd offsets are rejected (R198, R262, D25). -/
def branchOffset (labels : List (List Char × Nat)) (addr : Nat) : Operand → Except AsmError Int
  | .label n =>
    match labels.lookup n with
    | some a => evenOffset ((a : Int) - ((addr : Int) + 2))
    | none => .error .unknownLabel
  | .number n => evenOffset n
  | .reg _ | .imm _ | .mem _ _ => .error .badOperands
where
  evenOffset (n : Int) : Except AsmError Int := if n % 2 = 0 then .ok n else .error .oddOffset

/-- The instruction a mnemonic and its operands stand for at an address (R195). -/
def translate (labels : List (List Char × Nat)) (addr : Nat) :
    Mnemonic → List Operand → Except AsmError Instr
  | .NOP, [] => .ok .nop
  | .HALT, [] => .ok .halt
  | .ADD, [.reg d, .reg a, .reg b] => .ok (.add d a b)
  | .SUB, [.reg d, .reg a, .reg b] => .ok (.sub d a b)
  | .AND, [.reg d, .reg a, .reg b] => .ok (.and d a b)
  | .OR, [.reg d, .reg a, .reg b] => .ok (.or d a b)
  | .XOR, [.reg d, .reg a, .reg b] => .ok (.xor d a b)
  | .ADDI, [.reg d, .reg s, .imm n] => sameRegister d s (.addi d n)
  | .SUBI, [.reg d, .reg s, .imm n] => sameRegister d s (.subi d n)
  | .LOADI, [.reg d, .imm n] => inRange (.loadi d n)
  | .LOAD, [.reg d, .mem s n] => inRange (.load d s n)
  | .STORE, [.reg d, .mem s n] => inRange (.store d s n)
  | .BRANCH, [t] => (branchOffset labels addr t).bind fun n => inRange (.branch n)
  | .B, [t] => (branchOffset labels addr t).bind fun n => inRange (.branch n)
  | .BEQ, [t] => (branchOffset labels addr t).bind fun n => inRange (.beq n)
  | .BNE, [t] => (branchOffset labels addr t).bind fun n => inRange (.bne n)
  | .BLT, [t] => (branchOffset labels addr t).bind fun n => inRange (.blt n)
  | _, _ => .error .badOperands

/-- The words of the instructions, in order, from an address on. -/
def assembleLines (labels : List (List Char × Nat)) : Nat → List Line → Except AsmError (List Word)
  | _, [] => .ok []
  | a, .blank :: ls => assembleLines labels a ls
  | a, .label _ :: ls => assembleLines labels a ls
  | a, .instr m ops :: ls =>
    (translate labels a m ops).bind fun i =>
      (assembleLines labels (a + 2) ls).map fun ws => encode i :: ws

/-- Parse every line. -/
def parseLines : List (List Char) → Except AsmError (List Line)
  | [] => .ok []
  | l :: ls => (parseLine l).bind fun x => (parseLines ls).map fun xs => x :: xs

/-- Assemble a program whose first instruction stands at `origin`: the words in address order. R202
leaves open whether labels are case sensitive: DESIGN CHOICE, they are, names being compared character
by character, so that `loop` and `Loop` are two labels (log entry 16). One name defined twice is
refused (log entry 6). The origin is not checked, and addresses past 0xFFFF do not wrap: DESIGN CHOICE
(log entry 16). -/
def assemble (origin : Nat) (text : List (List Char)) : Except AsmError (List Word) :=
  (parseLines text).bind fun ls =>
    let labels := labelTable origin ls
    if (labels.map Prod.fst).Nodup then assembleLines labels origin ls else .error .duplicateLabel

end Sys2Proof.Machine.Asm
end

