-- ==== Sys2Proof/Safety.lean ====
section
/-! DEFINITION. The terms claims are stated in: when a step can be taken, where a data access is
plain, what an instruction may write, and the invariant every step keeps. -/

namespace Sys2Proof.Machine

/-! ## When a step is taken -/

/-- The machine takes its next step: neither halted nor faulted (R112, R337). -/
def Running (s : State) : Prop := s.halted = false ∧ s.faultMark = none

/-- An instruction can be fetched at the address: even and outside the I/O window (R160, R163). -/
def Fetchable (a : Word) : Prop := a.toNat % 2 = 0 ∧ ¬ InWindow a

/-- A 16-bit data access at the address reaches plain storage only (R158, R159, R161). -/
def PlainData (a : Word) : Prop := a ≠ 0xFFFF#16 ∧ a ≠ 0xEFFF#16 ∧ ¬ InWindow a

/-- The final state of a run: halted, and not by a fault (R338). -/
def Final (s : State) : Prop := s.halted = true ∧ s.faultMark = none

/-! ## What stays as it was -/

/-- Every byte of memory reads as before. -/
def MemoryUnchanged (s t : State) : Prop := ∀ a : Nat, readByte t a = readByte s a

/-- Every byte reads as before but the two of a 16-bit access at `ea` (R159). -/
def MemoryUnchangedBut (ea : Word) (s t : State) : Prop :=
  ∀ a : Nat, a ≠ ea.toNat → a ≠ ea.toNat + 1 → readByte t a = readByte s a

/-- Every general register holds what it held. -/
def RegsUnchanged (s t : State) : Prop := ∀ i : Reg, readReg t i = readReg s i

/-- Every general register but `rd` holds what it held. -/
def RegsUnchangedBut (rd : Reg) (s t : State) : Prop := ∀ i : Reg, i ≠ rd → readReg t i = readReg s i

/-- The launch's input streams are what they were. -/
def StreamsUnchanged (s t : State) : Prop := t.consoleIn = s.consoleIn ∧ t.timerIn = s.timerIn

/-- No device was accessed: the event record, the draws made and the streams are what they were. -/
def DevicesUnchanged (s t : State) : Prop :=
  t.events = s.events ∧ t.consoleReads = s.consoleReads ∧ t.timerReads = s.timerReads ∧
    StreamsUnchanged s t

/-- SP, IR, the run state and the fault mark are what they were. -/
def SpecialUnchanged (s t : State) : Prop :=
  t.sp = s.sp ∧ t.ir = s.ir ∧ t.halted = s.halted ∧ t.faultMark = s.faultMark

/-- The frame of an instruction that writes register `rd`: every other register, PC, SP, IR, the run
state, the fault mark, every byte of memory and the input streams are what they were. -/
def RegFrame (rd : Reg) (s t : State) : Prop :=
  RegsUnchangedBut rd s t ∧ t.pc = s.pc ∧ SpecialUnchanged s t ∧ MemoryUnchanged s t ∧
    StreamsUnchanged s t

/-- The frame of an instruction that writes register `rd` and flags and nothing else. -/
def WritesOnlyRegAndFlags (rd : Reg) (s t : State) : Prop := RegFrame rd s t ∧ DevicesUnchanged s t

/-- The frame of an instruction that writes no register and no flag, memory apart. -/
def StoreFrame (s t : State) : Prop :=
  RegsUnchanged s t ∧ t.flags = s.flags ∧ t.pc = s.pc ∧ SpecialUnchanged s t ∧
    t.consoleReads = s.consoleReads ∧ t.timerReads = s.timerReads ∧ StreamsUnchanged s t

/-- Z and N are assigned from the result `r`; C, O and the reserved bits keep their value (R132,
R133). -/
def FlagsFromResult (r : Word) (f g : Flags) : Prop :=
  (g.z = true ↔ r = 0#16) ∧ g.n = r.getLsbD 15 ∧ g.c = f.c ∧ g.o = f.o ∧ g.reserved = f.reserved

/-! ## What an instruction may write -/

/-- The register an instruction writes, if it writes one (R122). -/
def destination : Instr → Option Reg
  | .add rd _ _ | .sub rd _ _ | .and rd _ _ | .or rd _ _ | .xor rd _ _ => some rd
  | .addi rd _ | .subi rd _ | .loadi rd _ => some rd
  | .load rd _ _ => some rd
  | .store _ _ _ | .branch _ | .beq _ | .bne _ | .blt _ | .nop | .halt => none

/-- The instruction writes Z and N (R132). -/
def writesZN : Instr → Bool
  | .add _ _ _ | .addi _ _ | .sub _ _ _ | .subi _ _ | .and _ _ _ | .or _ _ _ | .xor _ _ _ => true
  | .load _ _ _ | .store _ _ _ | .loadi _ _ | .branch _ | .beq _ | .bne _ | .blt _ | .nop
  | .halt => false

/-- The instruction writes C: ADD only (R132). -/
def writesC : Instr → Bool
  | .add _ _ _ => true
  | .addi _ _ | .sub _ _ _ | .subi _ _ | .and _ _ _ | .or _ _ _ | .xor _ _ _ => false
  | .load _ _ _ | .store _ _ _ | .loadi _ _ | .branch _ | .beq _ | .bne _ | .blt _ | .nop
  | .halt => false

/-- The instruction makes a data access: LOAD and STORE only (R151). -/
def accessesData : Instr → Bool
  | .load _ _ _ | .store _ _ _ => true
  | .add _ _ _ | .addi _ _ | .sub _ _ _ | .subi _ _ | .and _ _ _ | .or _ _ _ | .xor _ _ _ => false
  | .loadi _ _ | .branch _ | .beq _ | .bne _ | .blt _ | .nop | .halt => false

/-- The offset a branch adds in the flags `f`: its own when it is taken, none when it is not or the
instruction is no branch (R125, R134). -/
def takenOffset (f : Flags) : Instr → Option Int
  | .branch off => some off
  | .beq off => if f.z = true then some off else none
  | .bne off => if f.z = false then some off else none
  | .blt off => if f.n = true then some off else none
  | .add _ _ _ | .addi _ _ | .sub _ _ _ | .subi _ _ | .and _ _ _ | .or _ _ _ | .xor _ _ _ => none
  | .load _ _ _ | .store _ _ _ | .loadi _ _ | .nop | .halt => none

/-! ## The invariant -/

/-- The event is one of the accesses R310 and R311 define. -/
def EventAllowed : IoEvent → Prop
  | .read a _ => a = 0xF001#16 ∨ a = 0xF003#16
  | .write a v => a = 0xF000#16 ∨ (a = 0xF002#16 ∧ (v = 0#16 ∨ v = 1#16)) ∨ a = 0xF003#16

/-- What holds at every launch and is kept by every step. -/
structure Invariant (s : State) : Prop where
  /-- Memory keeps its canonical form and holds nothing in the I/O window (R154, R155). -/
  memory : s.mem.wf = true
  /-- A faulted machine is not halted (R301). -/
  notBoth : s.faultMark = none ∨ s.halted = false
  /-- Every recorded event is an access a rule defines (R310, R311). -/
  allowed : ∀ e ∈ s.events, EventAllowed e
  /-- The `k`-th read of CONSOLE_IN returned the `k`-th element of its stream (R313). -/
  consoleDraws : readsFrom 0xF001#16 s.events = (List.range s.consoleReads).map (consoleElement s)
  /-- The `k`-th read of TIMER_VAL returned the `k`-th element of its stream (R316). -/
  timerDraws : readsFrom 0xF003#16 s.events = (List.range s.timerReads).map (timerElement s)

/-! ## What a program cannot see -/

/-- The two states agree on everything a program can observe: they may differ in SP, IR, C, O and
the reserved flag bits (R128, R129, R130, R134). -/
structure SameToProgram (s t : State) : Prop where
  regs : s.regs = t.regs
  pc : s.pc = t.pc
  z : s.flags.z = t.flags.z
  n : s.flags.n = t.flags.n
  halted : s.halted = t.halted
  faultMark : s.faultMark = t.faultMark
  mem : s.mem = t.mem
  events : s.events = t.events
  consoleReads : s.consoleReads = t.consoleReads
  timerReads : s.timerReads = t.timerReads
  consoleIn : s.consoleIn = t.consoleIn
  timerIn : s.timerIn = t.timerIn

/-- The two answers stop for the same reason, or go on to states that agree to a program. -/
def SameOutcome : Outcome → Outcome → Prop
  | .next s, .next t => SameToProgram s t
  | .fault f, .fault g => f = g
  | .refused r, .refused q => r = q
  | .next _, .fault _ | .next _, .refused _ | .fault _, .next _ | .fault _, .refused _
  | .refused _, .next _ | .refused _, .fault _ => False

/-- The same state with everything at PC moved by `d` (R331). -/
def movePc (d : Word) (s : State) : State := { s with pc := s.pc + d }

/-- The same answer with PC moved by `d`. -/
def Outcome.movePc (d : Word) : Outcome → Outcome
  | .next s => .next (Sys2Proof.Machine.movePc d s)
  | .fault f => .fault f
  | .refused r => .refused r

end Sys2Proof.Machine
end

