-- ==== Sys2Proof/Certificates/Slice0/Obligations.lean ====
section
/-! DEFINITION. What is stated about the machine, for the provers. Each docstring names the rule of
spec/ a statement formalises. No statement rests on the model's reset values (log entry 1) or on a
value of a free constant (log entries 2 and 3); each holds for every one. -/

open Sys2Proof Sys2Proof.Machine

/-! ## Encoding -/

/-- The words of 95_test_vectors.md decode as listed there: sections A5 and B1, and for BEQ, BNE and BLT
section B5. -/
def Obligations.SpecWordsDecodeAsListed : Prop :=
  decode 0x1298 = .add 1 2 3 ∧ decode 0x1290 = .add 1 2 2 ∧ decode 0x129F = .add 1 2 3 ∧
  decode 0x21FF = .addi 0 (-1) ∧ decode 0x3050 = .sub 0 1 2 ∧ decode 0x460A = .subi 3 10 ∧
  decode 0x5050 = .and 0 1 2 ∧ decode 0x6050 = .or 0 1 2 ∧ decode 0x7050 = .xor 0 1 2 ∧
  decode 0x8FA0 = .load 7 6 (-32) ∧ decode 0x9F9F = .store 7 6 31 ∧ decode 0xA500 = .loadi 2 (-256) ∧
  decode 0xBFFC = .branch (-4) ∧ decode 0xC006 = .beq 6 ∧ decode 0xDFFA = .bne (-6) ∧
  decode 0xEFFA = .blt (-6) ∧ decode 0x0ABC = .nop ∧ decode 0xFFFF = .halt

/-- R190, R191: the opcode IR[15:12] selects the instruction, and the fields of its format are its
operands. The first clause reads the opcode and the register fields as numbers; the second says that
the numbers read from the immediate fields, taken to 16 bits, are the fields sign-extended. -/
def Obligations.DecodingAlgorithm : Prop :=
  (∀ w : Word, (opcodeField w).toNat = w.toNat / 4096 ∧ (regField w 9).val = w.toNat / 512 % 8 ∧
    (regField w 6).val = w.toNat / 64 % 8 ∧ (regField w 3).val = w.toNat / 8 % 8) ∧
  (∀ w : Word, immWord (w.extractLsb' 0 9).toInt = (w.extractLsb' 0 9).signExtend 16 ∧
    immWord (w.extractLsb' 0 6).toInt = (w.extractLsb' 0 6).signExtend 16 ∧
    immWord (w.extractLsb' 0 12).toInt = (w.extractLsb' 0 12).signExtend 16) ∧
  ∀ w : Word,
    (opcodeField w = 0x0#4 → decode w = .nop) ∧
    (opcodeField w = 0x1#4 → decode w = .add (regField w 9) (regField w 6) (regField w 3)) ∧
    (opcodeField w = 0x2#4 → decode w = .addi (regField w 9) (w.extractLsb' 0 9).toInt) ∧
    (opcodeField w = 0x3#4 → decode w = .sub (regField w 9) (regField w 6) (regField w 3)) ∧
    (opcodeField w = 0x4#4 → decode w = .subi (regField w 9) (w.extractLsb' 0 9).toInt) ∧
    (opcodeField w = 0x5#4 → decode w = .and (regField w 9) (regField w 6) (regField w 3)) ∧
    (opcodeField w = 0x6#4 → decode w = .or (regField w 9) (regField w 6) (regField w 3)) ∧
    (opcodeField w = 0x7#4 → decode w = .xor (regField w 9) (regField w 6) (regField w 3)) ∧
    (opcodeField w = 0x8#4 →
      decode w = .load (regField w 9) (regField w 6) (w.extractLsb' 0 6).toInt) ∧
    (opcodeField w = 0x9#4 →
      decode w = .store (regField w 9) (regField w 6) (w.extractLsb' 0 6).toInt) ∧
    (opcodeField w = 0xA#4 → decode w = .loadi (regField w 9) (w.extractLsb' 0 9).toInt) ∧
    (opcodeField w = 0xB#4 → decode w = .branch (w.extractLsb' 0 12).toInt) ∧
    (opcodeField w = 0xC#4 → decode w = .beq (w.extractLsb' 0 12).toInt) ∧
    (opcodeField w = 0xD#4 → decode w = .bne (w.extractLsb' 0 12).toInt) ∧
    (opcodeField w = 0xE#4 → decode w = .blt (w.extractLsb' 0 12).toInt) ∧
    (opcodeField w = 0xF#4 → decode w = .halt)

/-- R189: the range of each immediate field and the 16-bit value used of it, by the instructions that
use it. -/
def Obligations.ImmediatesAreSignExtended : Prop :=
  ∀ (w : Word) (rd rs : Reg) (n : Int),
    (decode w = .addi rd n ∨ decode w = .subi rd n ∨ decode w = .loadi rd n →
      -256 ≤ n ∧ n ≤ 255 ∧
      immWord n = if w.getLsbD 8 = true then 0xFE00#16 ||| (w &&& 0x01FF#16) else w &&& 0x01FF#16) ∧
    (decode w = .load rd rs n ∨ decode w = .store rd rs n →
      -32 ≤ n ∧ n ≤ 31 ∧
      immWord n = if w.getLsbD 5 = true then 0xFFC0#16 ||| (w &&& 0x003F#16) else w &&& 0x003F#16) ∧
    (decode w = .branch n ∨ decode w = .beq n ∨ decode w = .bne n ∨ decode w = .blt n →
      -2048 ≤ n ∧ n ≤ 2047 ∧
      immWord n = if w.getLsbD 11 = true then 0xF000#16 ||| (w &&& 0x0FFF#16) else w &&& 0x0FFF#16)

/-- R192: whatever stands in the unused bits, IR[11:0] of NOP and HALT and IR[2:0] of Format 1, the
instruction is the same; the encoder writes zeros there. -/
def Obligations.UnusedBitsAreIgnored : Prop :=
  (∀ w u : Word, opcodeField w = 0x0#4 ∨ opcodeField w = 0xF#4 →
    decode ((w &&& 0xF000#16) ||| (u &&& 0x0FFF#16)) = decode w) ∧
  (∀ w u : Word,
    opcodeField w = 0x1#4 ∨ opcodeField w = 0x3#4 ∨ opcodeField w = 0x5#4 ∨ opcodeField w = 0x6#4 ∨
      opcodeField w = 0x7#4 →
    decode ((w &&& 0xFFF8#16) ||| (u &&& 0x0007#16)) = decode w) ∧
  encode .nop &&& 0x0FFF#16 = 0#16 ∧ encode .halt &&& 0x0FFF#16 = 0#16 ∧
  ∀ rd rs1 rs2 : Reg,
    encode (.add rd rs1 rs2) &&& 0x0007#16 = 0#16 ∧ encode (.sub rd rs1 rs2) &&& 0x0007#16 = 0#16 ∧
    encode (.and rd rs1 rs2) &&& 0x0007#16 = 0#16 ∧ encode (.or rd rs1 rs2) &&& 0x0007#16 = 0#16 ∧
    encode (.xor rd rs1 rs2) &&& 0x0007#16 = 0#16

/-- Decode and encode agree: no operand of a well-formed instruction loses a bit. -/
def Obligations.DecodeOfEncodeIsTheInstruction : Prop :=
  ∀ i : Instr, i.wellFormed = true → decode (encode i) = i

/-- Every word decodes to a well-formed instruction, and encoding that gives the word back with zeros
in its unused bits. -/
def Obligations.EncodeOfDecodeIsTheCanonicalWord : Prop :=
  ∀ w : Word, (decode w).wellFormed = true ∧ encode (decode w) = canonical w

/-- A STORE, a LOAD and an instruction fetch all put the less significant byte at the lower address;
the bytes 0x2A, 0xA0 are the word 0xA02A. That little-endian means this byte order is PRESUMED: R157
supplies it from general knowledge (log entry 8). -/
def Obligations.LittleEndianEverywhere : Prop :=
  (∀ (rd rs : Reg) (off : Int) (s t : State), PlainData (effectiveAddress s rs off) →
    exec (.store rd rs off) s = .next t →
    (readByte t (effectiveAddress s rs off).toNat).toNat = (readReg s rd).toNat % 256 ∧
    (readByte t ((effectiveAddress s rs off).toNat + 1)).toNat = (readReg s rd).toNat / 256) ∧
  (∀ (rd rs : Reg) (off : Int) (s t : State), PlainData (effectiveAddress s rs off) →
    exec (.load rd rs off) s = .next t →
    (readReg t rd).toNat = (readByte s (effectiveAddress s rs off).toNat).toNat +
      256 * (readByte s ((effectiveAddress s rs off).toNat + 1)).toNat) ∧
  (∀ s t : State, step s = .next t →
    t.ir.toNat = (readByte s s.pc.toNat).toNat + 256 * (readByte s (s.pc.toNat + 1)).toNat) ∧
  wordOfBytes 0x2A#8 0xA0#8 = 0xA02A#16

/-! ## One step -/

/-- R112: a halted machine takes no step; otherwise the step fetches at PC, sets IR to the word, moves
PC on by 2 and executes the instruction the two bytes decode to; a step that faults, in the fetch or
in the execute part, leaves IR and PC as they were. -/
def Obligations.StepRunsTheDecodedInstruction : Prop :=
  (∀ s : State, s.halted = true → step s = .refused .halted) ∧
  (∀ (s : State) (i : Instr), Running s → Fetchable s.pc →
    decodeBytes [readByte s s.pc.toNat, readByte s (s.pc.toNat + 1)] = .ok (i, []) →
    step s = exec i { s with ir := wordOfBytes (readByte s s.pc.toNat) (readByte s (s.pc.toNat + 1)),
                             pc := s.pc + 2#16 }) ∧
  (∀ (s : State) (f : Fault), step s = .fault f →
    (standsAfter s (step s)).ir = s.ir ∧ (standsAfter s (step s)).pc = s.pc)

/-- R160: a fetch faults at an odd PC, wherever it is, then at an even PC in the I/O window, and
nowhere else; there the fetched word is the two bytes at PC. -/
def Obligations.FetchFaults : Prop :=
  ∀ s : State, Running s →
    (s.pc.toNat % 2 = 1 → step s = .fault (.misalignedFetch s.pc)) ∧
    (s.pc.toNat % 2 = 0 ∧ InWindow s.pc → step s = .fault (.fetchFromIo s.pc)) ∧
    (s.pc.toNat % 2 = 0 ∧ ¬ InWindow s.pc →
      fetchRead s s.pc =
        .ok (wordOfBytes (readByte s s.pc.toNat) (readByte s (s.pc.toNat + 1))))

/-- R301: a faulting step changes nothing but the fault mark, and the machine takes no further step,
for however long one waits. -/
def Obligations.FaultingStepChangesNothing : Prop :=
  ∀ (s : State) (f : Fault), Running s → step s = .fault f →
    (standsAfter s (step s)).regs = s.regs ∧ (standsAfter s (step s)).pc = s.pc ∧
    (standsAfter s (step s)).sp = s.sp ∧ (standsAfter s (step s)).ir = s.ir ∧
    (standsAfter s (step s)).flags = s.flags ∧ (standsAfter s (step s)).halted = false ∧
    (standsAfter s (step s)).mem = s.mem ∧ (standsAfter s (step s)).events = s.events ∧
    (standsAfter s (step s)).consoleReads = s.consoleReads ∧
    (standsAfter s (step s)).timerReads = s.timerReads ∧
    (standsAfter s (step s)).faultMark = some f ∧ ¬ Final (standsAfter s (step s)) ∧
    ∀ k : Nat, stateAfter k (standsAfter s (step s)) = standsAfter s (step s) ∧
      step (stateAfter k (standsAfter s (step s))) = .fault f

/-- R302: the five kinds, their conditions and the information each records; an instruction other
than LOAD and STORE raises only the two fetch faults. -/
def Obligations.FaultKindsAndConditions : Prop :=
  ∀ (s : State) (f : Fault), Running s →
    let i := decode (wordOfBytes (readByte s s.pc.toNat) (readByte s (s.pc.toNat + 1)))
    (step s = .fault f ↔
      (s.pc.toNat % 2 = 1 ∧ f = .misalignedFetch s.pc) ∨
      (s.pc.toNat % 2 = 0 ∧ InWindow s.pc ∧ f = .fetchFromIo s.pc) ∨
      (s.pc.toNat % 2 = 0 ∧ ¬ InWindow s.pc ∧ ∃ (rd rs : Reg) (off : Int),
        (i = .load rd rs off ∨ i = .store rd rs off) ∧
        ((effectiveAddress s rs off = 0xFFFF#16 ∧ f = .addressWrap (effectiveAddress s rs off)) ∨
         (effectiveAddress s rs off = 0xEFFF#16 ∧ f = .ioStraddle (effectiveAddress s rs off)) ∨
         (InWindow (effectiveAddress s rs off) ∧ i = .load rd rs off ∧
           effectiveAddress s rs off ≠ 0xF001#16 ∧ effectiveAddress s rs off ≠ 0xF003#16 ∧
           f = .ioUndefined (effectiveAddress s rs off) none) ∨
         (InWindow (effectiveAddress s rs off) ∧ i = .store rd rs off ∧
           effectiveAddress s rs off ≠ 0xF000#16 ∧ effectiveAddress s rs off ≠ 0xF003#16 ∧
           ¬ (effectiveAddress s rs off = 0xF002#16 ∧ (readReg s rd = 0#16 ∨ readReg s rd = 1#16)) ∧
           f = .ioUndefined (effectiveAddress s rs off) (some (readReg s rd))))))

/-- No instruction is refused, and a machine that is neither halted nor faulted takes its next step or
meets one of the spec's faults (R193, R282, R337). -/
def Obligations.RunningMachineGoesOnOrFaults : Prop :=
  (∀ (i : Instr) (s : State) (r : Refusal), exec i s ≠ .refused r) ∧
  (∀ s : State, Running s → (∃ t, step s = .next t) ∨ ∃ f, step s = .fault f) ∧
  ∀ (s t : State), step s = .next t → Running s

/-! ## Arithmetic and logic -/

/-- R211: ADD runs for all operands; result, Z, N, C, and everything else as it was. -/
def Obligations.AddRegisters : Prop :=
  (∀ w : Word, opcodeField w = 0x1#4 →
    decode w = .add (regField w 9) (regField w 6) (regField w 3)) ∧
  ∀ (rd rs1 rs2 : Reg) (s : State), ∃ t, exec (.add rd rs1 rs2) s = .next t ∧
    readReg t rd = readReg s rs1 + readReg s rs2 ∧
    (t.flags.z = true ↔ readReg s rs1 + readReg s rs2 = 0#16) ∧
    t.flags.n = (readReg s rs1 + readReg s rs2).getLsbD 15 ∧
    (t.flags.c = true ↔ 65536 ≤ (readReg s rs1).toNat + (readReg s rs2).toNat) ∧
    t.flags.o = s.flags.o ∧ t.flags.reserved = s.flags.reserved ∧ WritesOnlyRegAndFlags rd s t

/-- R212: ADDI runs for all operands; result, Z, N, and everything else, C included, as it was. -/
def Obligations.AddImmediate : Prop :=
  (∀ w : Word, opcodeField w = 0x2#4 → decode w = .addi (regField w 9) (imm9Field w)) ∧
  ∀ (rd : Reg) (imm : Int) (s : State), ∃ t, exec (.addi rd imm) s = .next t ∧
    readReg t rd = readReg s rd + BitVec.ofInt 16 imm ∧
    FlagsFromResult (readReg s rd + BitVec.ofInt 16 imm) s.flags t.flags ∧
    WritesOnlyRegAndFlags rd s t

/-- R213: SUB runs for all operands; the first source is the minuend, and no borrow is recorded. -/
def Obligations.SubtractRegisters : Prop :=
  (∀ w : Word, opcodeField w = 0x3#4 →
    decode w = .sub (regField w 9) (regField w 6) (regField w 3)) ∧
  ∀ (rd rs1 rs2 : Reg) (s : State), ∃ t, exec (.sub rd rs1 rs2) s = .next t ∧
    readReg t rd = readReg s rs1 - readReg s rs2 ∧
    FlagsFromResult (readReg s rs1 - readReg s rs2) s.flags t.flags ∧ WritesOnlyRegAndFlags rd s t

/-- R214: SUBI runs for all operands; the sign-extended immediate is subtracted. -/
def Obligations.SubtractImmediate : Prop :=
  (∀ w : Word, opcodeField w = 0x4#4 → decode w = .subi (regField w 9) (imm9Field w)) ∧
  ∀ (rd : Reg) (imm : Int) (s : State), ∃ t, exec (.subi rd imm) s = .next t ∧
    readReg t rd = readReg s rd - BitVec.ofInt 16 imm ∧
    FlagsFromResult (readReg s rd - BitVec.ofInt 16 imm) s.flags t.flags ∧
    WritesOnlyRegAndFlags rd s t

/-- R231: AND runs for all operands, bit by bit. -/
def Obligations.BitwiseAnd : Prop :=
  (∀ w : Word, opcodeField w = 0x5#4 →
    decode w = .and (regField w 9) (regField w 6) (regField w 3)) ∧
  ∀ (rd rs1 rs2 : Reg) (s : State), ∃ t, exec (.and rd rs1 rs2) s = .next t ∧
    (∀ k < 16, (readReg t rd).getLsbD k = true ↔
      (readReg s rs1).getLsbD k = true ∧ (readReg s rs2).getLsbD k = true) ∧
    FlagsFromResult (readReg t rd) s.flags t.flags ∧ WritesOnlyRegAndFlags rd s t

/-- R232: OR runs for all operands, bit by bit. -/
def Obligations.BitwiseOr : Prop :=
  (∀ w : Word, opcodeField w = 0x6#4 →
    decode w = .or (regField w 9) (regField w 6) (regField w 3)) ∧
  ∀ (rd rs1 rs2 : Reg) (s : State), ∃ t, exec (.or rd rs1 rs2) s = .next t ∧
    (∀ k < 16, (readReg t rd).getLsbD k = true ↔
      (readReg s rs1).getLsbD k = true ∨ (readReg s rs2).getLsbD k = true) ∧
    FlagsFromResult (readReg t rd) s.flags t.flags ∧ WritesOnlyRegAndFlags rd s t

/-- R233: XOR runs for all operands, bit by bit. -/
def Obligations.BitwiseXor : Prop :=
  (∀ w : Word, opcodeField w = 0x7#4 →
    decode w = .xor (regField w 9) (regField w 6) (regField w 3)) ∧
  ∀ (rd rs1 rs2 : Reg) (s : State), ∃ t, exec (.xor rd rs1 rs2) s = .next t ∧
    (∀ k < 16, (readReg t rd).getLsbD k = true ↔
      (readReg s rs1).getLsbD k ≠ (readReg s rs2).getLsbD k) ∧
    FlagsFromResult (readReg t rd) s.flags t.flags ∧ WritesOnlyRegAndFlags rd s t

/-- R210: results are modulo 2^16, the same 16 bits serve the unsigned and the signed reading, and
subtraction is addition of the complement and 1. -/
def Obligations.ArithmeticIsModulo : Prop :=
  ∀ (rd rs1 rs2 : Reg) (imm : Int) (s t : State),
    (exec (.add rd rs1 rs2) s = .next t →
      (readReg t rd).toNat = ((readReg s rs1).toNat + (readReg s rs2).toNat) % 65536 ∧
      (readReg t rd).toInt = ((readReg s rs1).toInt + (readReg s rs2).toInt).bmod 65536) ∧
    (exec (.addi rd imm) s = .next t →
      ((readReg t rd).toNat : Int) = ((readReg s rd).toNat + imm) % 65536 ∧
      (readReg t rd).toInt = ((readReg s rd).toInt + imm).bmod 65536) ∧
    (exec (.sub rd rs1 rs2) s = .next t →
      ((readReg t rd).toNat : Int) = ((readReg s rs1).toNat - (readReg s rs2).toNat : Int) % 65536 ∧
      (readReg t rd).toInt = ((readReg s rs1).toInt - (readReg s rs2).toInt).bmod 65536 ∧
      readReg t rd = readReg s rs1 + ~~~ readReg s rs2 + 1#16) ∧
    (exec (.subi rd imm) s = .next t →
      ((readReg t rd).toNat : Int) = ((readReg s rd).toNat - imm) % 65536 ∧
      (readReg t rd).toInt = ((readReg s rd).toInt - imm).bmod 65536)

/-- SUBI of `n` and ADDI of `-n` are the same, result and flags, for every `n` that both can encode
(R214, corner cases). -/
def Obligations.SubiIsAddiOfTheNegation : Prop :=
  ∀ (rd : Reg) (n : Int) (s : State), -255 ≤ n → n ≤ 255 →
    exec (.subi rd n) s = exec (.addi rd (-n)) s

/-! ## Memory and devices -/

/-- R240: the effective address is the base register plus the signed byte offset, modulo 2^16, and
the base register itself when the offset is 0; LOAD and STORE leave the base register as it was (LOAD
unless it is the destination). -/
def Obligations.EffectiveAddress : Prop :=
  (∀ (s : State) (rs : Reg) (off : Int),
    ((effectiveAddress s rs off).toNat : Int) = ((readReg s rs).toNat + off) % 65536 ∧
    effectiveAddress s rs 0 = readReg s rs) ∧
  ∀ (rd rs : Reg) (off : Int) (s t : State),
    (exec (.load rd rs off) s = .next t → rs ≠ rd → readReg t rs = readReg s rs) ∧
    (exec (.store rd rs off) s = .next t → readReg t rs = readReg s rs)

/-- R241: LOAD, for every effective address. In plain storage it runs and reads two bytes; at 0xF001
and 0xF003 it runs and reads the device; everywhere else it stops with the fault of that address. No
flag is written. -/
def Obligations.LoadFromMemory : Prop :=
  (∀ w : Word, opcodeField w = 0x8#4 → decode w = .load (regField w 9) (regField w 6) (off6Field w)) ∧
  ∀ (rd rs : Reg) (off : Int) (s : State),
    let ea := effectiveAddress s rs off
    (ea = readReg s rs + BitVec.ofInt 16 off) ∧
    (PlainData ea → ∃ t, exec (.load rd rs off) s = .next t ∧
      (readReg t rd).toNat =
        (readByte s ea.toNat).toNat + 256 * (readByte s (ea.toNat + 1)).toNat ∧
      t.flags = s.flags ∧ WritesOnlyRegAndFlags rd s t) ∧
    (ea = 0xF001#16 → ∃ t, exec (.load rd rs off) s = .next t ∧
      readReg t rd = consoleElement s s.consoleReads ∧
      t.events = s.events ++ [.read 0xF001#16 (consoleElement s s.consoleReads)] ∧
      t.consoleReads = s.consoleReads + 1 ∧ t.timerReads = s.timerReads ∧
      t.flags = s.flags ∧ RegFrame rd s t) ∧
    (ea = 0xF003#16 → ∃ t, exec (.load rd rs off) s = .next t ∧
      readReg t rd = timerElement s s.timerReads ∧
      t.events = s.events ++ [.read 0xF003#16 (timerElement s s.timerReads)] ∧
      t.timerReads = s.timerReads + 1 ∧ t.consoleReads = s.consoleReads ∧
      t.flags = s.flags ∧ RegFrame rd s t) ∧
    (ea = 0xFFFF#16 → exec (.load rd rs off) s = .fault (.addressWrap ea)) ∧
    (ea = 0xEFFF#16 → exec (.load rd rs off) s = .fault (.ioStraddle ea)) ∧
    (InWindow ea → ea ≠ 0xF001#16 → ea ≠ 0xF003#16 →
      exec (.load rd rs off) s = .fault (.ioUndefined ea none))

/-- R242: STORE, for every effective address. In plain storage it runs and writes two bytes and no
others; at 0xF000, 0xF003 and, for the values 0 and 1, 0xF002 it runs and is recorded; everywhere
else it stops with the fault of that address. No register and no flag is written. -/
def Obligations.StoreToMemory : Prop :=
  (∀ w : Word, opcodeField w = 0x9#4 →
    decode w = .store (regField w 9) (regField w 6) (off6Field w)) ∧
  ∀ (rd rs : Reg) (off : Int) (s : State),
    let ea := effectiveAddress s rs off
    (ea = readReg s rs + BitVec.ofInt 16 off) ∧
    (PlainData ea → ∃ t, exec (.store rd rs off) s = .next t ∧
      (readByte t ea.toNat).toNat = (readReg s rd).toNat % 256 ∧
      (readByte t (ea.toNat + 1)).toNat = (readReg s rd).toNat / 256 ∧
      MemoryUnchangedBut ea s t ∧ t.events = s.events ∧ StoreFrame s t) ∧
    (ea = 0xF000#16 ∨ (ea = 0xF002#16 ∧ (readReg s rd = 0#16 ∨ readReg s rd = 1#16)) ∨
        ea = 0xF003#16 →
      ∃ t, exec (.store rd rs off) s = .next t ∧
        t.events = s.events ++ [.write ea (readReg s rd)] ∧ MemoryUnchanged s t ∧
        StoreFrame s t) ∧
    (ea = 0xFFFF#16 → exec (.store rd rs off) s = .fault (.addressWrap ea)) ∧
    (ea = 0xEFFF#16 → exec (.store rd rs off) s = .fault (.ioStraddle ea)) ∧
    (InWindow ea → ea ≠ 0xF000#16 → ea ≠ 0xF003#16 →
      ¬ (ea = 0xF002#16 ∧ (readReg s rd = 0#16 ∨ readReg s rd = 1#16)) →
      exec (.store rd rs off) s = .fault (.ioUndefined ea (some (readReg s rd))))

/-- R243: LOADI runs for all operands, makes no data access and writes no flag. -/
def Obligations.LoadImmediate : Prop :=
  (∀ w : Word, opcodeField w = 0xA#4 → decode w = .loadi (regField w 9) (imm9Field w)) ∧
  ∀ (rd : Reg) (imm : Int) (s : State), ∃ t, exec (.loadi rd imm) s = .next t ∧
    readReg t rd = BitVec.ofInt 16 imm ∧ t.flags = s.flags ∧ WritesOnlyRegAndFlags rd s t

/-- R317: each device access without a meaning faults, and the fault records the address and, for a
STORE, the value. -/
def Obligations.UndefinedDeviceAccesses : Prop :=
  ∀ (rd rs : Reg) (off : Int) (s : State) (ea : Word), effectiveAddress s rs off = ea →
    (ea = 0xF000#16 ∨ ea = 0xF002#16 →
      exec (.load rd rs off) s = .fault (.ioUndefined ea none)) ∧
    (ea = 0xF001#16 → exec (.store rd rs off) s = .fault (.ioUndefined ea (some (readReg s rd)))) ∧
    (ea = 0xF002#16 → 2 ≤ (readReg s rd).toNat →
      exec (.store rd rs off) s = .fault (.ioUndefined ea (some (readReg s rd)))) ∧
    (0xF004 ≤ ea.toNat → ea.toNat ≤ 0xF0FF →
      exec (.load rd rs off) s = .fault (.ioUndefined ea none) ∧
      exec (.store rd rs off) s = .fault (.ioUndefined ea (some (readReg s rd))))

/-- R312 and R315 as an observer sees them: a STORE to 0xF000 appends its low byte to the console
output, a STORE of 0 or 1 to 0xF002 sets the timer, and a STORE anywhere else does neither. That the
character is the low byte is PRESUMED: R312 supplies it from general knowledge (log entry 9). -/
def Obligations.ConsoleAndTimerOutput : Prop :=
  ∀ (rd rs : Reg) (off : Int) (s t : State), exec (.store rd rs off) s = .next t →
    (effectiveAddress s rs off = 0xF000#16 →
      consoleOutput t.events = consoleOutput s.events ++ [(readReg s rd).extractLsb' 0 8] ∧
      timerSetting t.events = timerSetting s.events) ∧
    (effectiveAddress s rs off = 0xF002#16 →
      consoleOutput t.events = consoleOutput s.events ∧
      timerSetting t.events = some (decide (readReg s rd = 1#16))) ∧
    (effectiveAddress s rs off ≠ 0xF000#16 → effectiveAddress s rs off ≠ 0xF002#16 →
      consoleOutput t.events = consoleOutput s.events ∧
      timerSetting t.events = timerSetting s.events)

/-- R166, rule 2: a LOAD returns what the latest STORE at its address stored, in every state in which
the two bytes at the address read as they did after that STORE, whatever the rest of memory holds. -/
def Obligations.LoadReturnsTheStoredValue : Prop :=
  ∀ (rd rs rd' rs' : Reg) (off off' : Int) (s t u : State),
    let ea := effectiveAddress s rs off
    exec (.store rd rs off) s = .next t → PlainData ea →
    readByte u ea.toNat = readByte t ea.toNat →
    readByte u (ea.toNat + 1) = readByte t (ea.toNat + 1) →
    effectiveAddress u rs' off' = ea →
    ∃ v, exec (.load rd' rs' off') u = .next v ∧ readReg v rd' = readReg s rd

/-- R164: two STOREs one byte apart overlap in one byte, and the LOADs at both addresses see it. -/
def Obligations.OverlappingStores : Prop :=
  ∀ (rd rs rd' rs' rd'' rs'' : Reg) (off off' off'' : Int) (s t u : State),
    exec (.store rd rs off) s = .next t → PlainData (effectiveAddress s rs off) →
    exec (.store rd' rs' off') t = .next u → PlainData (effectiveAddress t rs' off') →
    effectiveAddress t rs' off' = effectiveAddress s rs off + 1#16 →
    (effectiveAddress u rs'' off'' = effectiveAddress s rs off →
      ∃ v, exec (.load rd'' rs'' off'') u = .next v ∧
        (readReg v rd'').toNat =
          (readReg s rd).toNat % 256 + 256 * ((readReg t rd').toNat % 256)) ∧
    (effectiveAddress u rs'' off'' = effectiveAddress s rs off + 1#16 →
      ∃ v, exec (.load rd'' rs'' off'') u = .next v ∧ readReg v rd'' = readReg t rd')

/-- R168: a STORE is seen by every later fetch. In every running state whose two bytes at PC read as
they did after the STORE, the state right after it included, the step executes the word those bytes
make: the stored word where PC is the address stored to, one stored byte and one older byte where PC
is one below or one above it, and the word as it was where the STORE is elsewhere, a device included. -/
def Obligations.FetchSeesTheStore : Prop :=
  ∀ (rd rs : Reg) (off : Int) (s t u : State),
    let ea := effectiveAddress s rs off
    let v := readReg s rd
    exec (.store rd rs off) s = .next t → Running u → Fetchable u.pc →
    readByte u u.pc.toNat = readByte t u.pc.toNat →
    readByte u (u.pc.toNat + 1) = readByte t (u.pc.toNat + 1) →
    ∃ w : Word, step u = exec (decode w) { u with ir := w, pc := u.pc + 2#16 } ∧
      (u.pc = ea → w = v) ∧
      (ea = u.pc + 1#16 → w = wordOfBytes (readByte s u.pc.toNat) (v.extractLsb' 0 8)) ∧
      (u.pc = ea + 1#16 → w = wordOfBytes (v.extractLsb' 8 8) (readByte s (u.pc.toNat + 1))) ∧
      (u.pc ≠ ea → ea ≠ u.pc + 1#16 → u.pc ≠ ea + 1#16 →
        w = wordOfBytes (readByte s u.pc.toNat) (readByte s (u.pc.toNat + 1)))

/-! ## Control flow -/

/-- R263: BRANCH always runs and adds its byte offset to PC; nothing else changes. -/
def Obligations.BranchAlways : Prop :=
  (∀ w : Word, opcodeField w = 0xB#4 → decode w = .branch (off12Field w)) ∧
  ∀ (off : Int) (s : State),
    exec (.branch off) s = .next { s with pc := s.pc + BitVec.ofInt 16 off }

/-- R264: BEQ runs in every state; it moves PC exactly when Z = 1, and changes nothing else. -/
def Obligations.BranchIfEqual : Prop :=
  (∀ w : Word, opcodeField w = 0xC#4 → decode w = .beq (off12Field w)) ∧
  ∀ (off : Int) (s : State),
    (s.flags.z = true → exec (.beq off) s = .next { s with pc := s.pc + BitVec.ofInt 16 off }) ∧
    (s.flags.z = false → exec (.beq off) s = .next s)

/-- R265: BNE runs in every state; it moves PC exactly when Z = 0, and changes nothing else. -/
def Obligations.BranchIfNotEqual : Prop :=
  (∀ w : Word, opcodeField w = 0xD#4 → decode w = .bne (off12Field w)) ∧
  ∀ (off : Int) (s : State),
    (s.flags.z = false → exec (.bne off) s = .next { s with pc := s.pc + BitVec.ofInt 16 off }) ∧
    (s.flags.z = true → exec (.bne off) s = .next s)

/-- R266: BLT runs in every state; it moves PC exactly when N = 1, whatever the other flags are, and
changes nothing else. -/
def Obligations.BranchIfLessThan : Prop :=
  (∀ w : Word, opcodeField w = 0xE#4 → decode w = .blt (off12Field w)) ∧
  ∀ (off : Int) (s : State),
    (s.flags.n = true → exec (.blt off) s = .next { s with pc := s.pc + BitVec.ofInt 16 off }) ∧
    (s.flags.n = false → exec (.blt off) s = .next s)

/-- R125, R260: every step moves PC on by 2 and a taken branch, at address A, to A + 2 plus its
offset; no other instruction writes PC. -/
def Obligations.ProgramCounterAdvance : Prop :=
  ∀ s t : State, step s = .next t →
    t.pc =
      match takenOffset s.flags
          (decode (wordOfBytes (readByte s s.pc.toNat) (readByte s (s.pc.toNat + 1)))) with
      | some off => (s.pc + 2#16) + BitVec.ofInt 16 off
      | none => s.pc + 2#16

/-- SUB then BEQ is an equality test for all values, SUB then BNE its complement (R213, R264, R265,
corner cases). -/
def Obligations.SubThenBranchTestsEquality : Prop :=
  ∀ (rd rs1 rs2 : Reg) (off : Int) (s t : State), exec (.sub rd rs1 rs2) s = .next t →
    (readReg s rs1 = readReg s rs2 →
      exec (.beq off) t = .next { t with pc := t.pc + BitVec.ofInt 16 off } ∧
      exec (.bne off) t = .next t) ∧
    (readReg s rs1 ≠ readReg s rs2 →
      exec (.beq off) t = .next t ∧
      exec (.bne off) t = .next { t with pc := t.pc + BitVec.ofInt 16 off })

/-- SUB then BLT is the signed comparison exactly while the true difference fits in 16 bits, and the
opposite of it where it does not (R213, R266, corner cases). -/
def Obligations.SubThenBltComparesSigned : Prop :=
  ∀ (rd rs1 rs2 : Reg) (off : Int) (s t : State), exec (.sub rd rs1 rs2) s = .next t →
    let x := (readReg s rs1).toInt
    let y := (readReg s rs2).toInt
    (-32768 ≤ x - y ∧ x - y ≤ 32767 →
      exec (.blt off) t =
        .next (if x < y then { t with pc := t.pc + BitVec.ofInt 16 off } else t)) ∧
    (x - y < -32768 ∨ 32767 < x - y →
      exec (.blt off) t =
        .next (if x < y then t else { t with pc := t.pc + BitVec.ofInt 16 off }))

/-! ## NOP and HALT -/

/-- R280: NOP runs and changes nothing beyond the fetch phase. -/
def Obligations.NoOperation : Prop :=
  (∀ w : Word, opcodeField w = 0x0#4 → decode w = .nop) ∧
  (∀ s : State, exec .nop s = .next s) ∧
  ∀ s : State, Running s → Fetchable s.pc →
    decode (wordOfBytes (readByte s s.pc.toNat) (readByte s (s.pc.toNat + 1))) = .nop →
    step s = .next { s with
      ir := wordOfBytes (readByte s s.pc.toNat) (readByte s (s.pc.toNat + 1)), pc := s.pc + 2#16 }

/-- R281: HALT runs and sets the run state; the step that executes it leaves IR the HALT word, PC the
address of the HALT plus 2 and everything else as it was, and no further step is taken. -/
def Obligations.HaltStopsExecution : Prop :=
  (∀ w : Word, opcodeField w = 0xF#4 → decode w = .halt) ∧
  (∀ s : State, exec .halt s = .next { s with halted := true }) ∧
  ∀ s : State, Running s → Fetchable s.pc →
    decode (wordOfBytes (readByte s s.pc.toNat) (readByte s (s.pc.toNat + 1))) = .halt →
    ∃ t, step s = .next t ∧
      t = { s with
        ir := wordOfBytes (readByte s s.pc.toNat) (readByte s (s.pc.toNat + 1)),
        pc := s.pc + 2#16, halted := true } ∧
      Final t ∧ ∀ k : Nat, stateAfter k t = t ∧ step (stateAfter k t) = .refused .halted

/-! ## Rules of the whole machine -/

/-- R132, R133: Z and N are assigned from the result by the seven arithmetic and logical instructions,
C by ADD only; every flag an instruction does not list keeps its value, and no instruction writes O
or the reserved bits. -/
def Obligations.FlagsWrittenAsTheTableSays : Prop :=
  ∀ (i : Instr) (s t : State), exec i s = .next t →
    (writesZN i = true → ∃ rd, destination i = some rd ∧
      (t.flags.z = true ↔ readReg t rd = 0#16) ∧ t.flags.n = (readReg t rd).getLsbD 15) ∧
    (writesZN i = false → t.flags.z = s.flags.z ∧ t.flags.n = s.flags.n) ∧
    (∀ rd rs1 rs2, i = .add rd rs1 rs2 →
      (t.flags.c = true ↔ 65536 ≤ (readReg s rs1).toNat + (readReg s rs2).toNat)) ∧
    (writesC i = false → t.flags.c = s.flags.c) ∧
    t.flags.o = s.flags.o ∧ t.flags.reserved = s.flags.reserved

/-- R121, R122: an instruction changes no register but the one its row of the table names, and any
register, R0 included, returns what was written to it. -/
def Obligations.RegistersWrittenAsTheTableSays : Prop :=
  (∀ (i : Instr) (s t : State), exec i s = .next t →
    ∀ r : Reg, destination i ≠ some r → readReg t r = readReg s r) ∧
  ∀ (s : State) (i j : Reg) (v : Word),
    readReg (writeReg s i v) j = if j = i then v else readReg s j

/-- From R151: no instruction but LOAD and STORE changes data: every other one leaves every byte of
memory and every device as it was, and a LOAD leaves every byte of memory as it was. -/
def Obligations.OnlyLoadAndStoreReachData : Prop :=
  ∀ (i : Instr) (s t : State), exec i s = .next t →
    (accessesData i = false → MemoryUnchanged s t ∧ DevicesUnchanged s t) ∧
    (∀ rd rs off, i = .load rd rs off → MemoryUnchanged s t)

/-- R136: after a step that goes on the machine is halted exactly when the instruction was a HALT.
R301, and R138's row for the fault mark: no such step marks a fault, since only a faulting one does. -/
def Obligations.OnlyHaltHalts : Prop :=
  ∀ s t : State, step s = .next t →
    t.faultMark = none ∧
    (t.halted = true ↔
      decode (wordOfBytes (readByte s s.pc.toNat) (readByte s (s.pc.toNat + 1))) = .halt)

/-- R128, R135: SP, O and the reserved flag bits keep their start value for the whole run, however
long it is. -/
def Obligations.UnreachableStateKeepsItsStartValue : Prop :=
  ∀ (k : Nat) (s : State), (stateAfter k s).sp = s.sp ∧ (stateAfter k s).flags.o = s.flags.o ∧
    (stateAfter k s).flags.reserved = s.flags.reserved

/-- R165, R166 rule 3: a step adds to the event record the one device access its instruction makes,
once, at the end, and otherwise leaves the record alone. -/
def Obligations.EventRecordGrowsByTheAccessMade : Prop :=
  ∀ s t : State, step s = .next t →
    let i := decode (wordOfBytes (readByte s s.pc.toNat) (readByte s (s.pc.toNat + 1)))
    (t.events = s.events ∨
      (∃ rd rs off, i = .load rd rs off ∧ InWindow (effectiveAddress s rs off) ∧
        t.events = s.events ++ [.read (effectiveAddress s rs off) (readReg t rd)]) ∨
      (∃ rd rs off, i = .store rd rs off ∧ InWindow (effectiveAddress s rs off) ∧
        t.events = s.events ++ [.write (effectiveAddress s rs off) (readReg s rd)])) ∧
    (∀ rd rs off, i = .load rd rs off ∨ i = .store rd rs off →
      InWindow (effectiveAddress s rs off) → t.events.length = s.events.length + 1)

/-- A program cannot see SP, IR, C, O or the reserved flag bits: from two states that agree on all
else the machine goes on to states that agree on all else, or stops for the same reason (R128, R129,
R130, R134). -/
def Obligations.HiddenStateNeverMatters : Prop :=
  ∀ s t : State, SameToProgram s t → SameOutcome (step s) (step t)

/-- Programs are position-independent: an instruction does the same with PC moved by any amount, and
so does a step whose word is also found at the moved PC (R331). -/
def Obligations.ProgramsArePositionIndependent : Prop :=
  (∀ (d : Word) (i : Instr) (s : State),
    exec i (movePc d s) = Outcome.movePc d (exec i s)) ∧
  ∀ (d : Word) (s : State), Fetchable s.pc → Fetchable (s.pc + d) →
    readByte s (s.pc + d).toNat = readByte s s.pc.toNat →
    readByte s ((s.pc + d).toNat + 1) = readByte s (s.pc.toNat + 1) →
    ∀ t, step s = .next t → ∃ u, step (movePc d s) = .next u ∧
      u = { t with pc := t.pc + d }

/-! ## The invariant -/

/-- Every step keeps the invariant: memory canonical and clear of the I/O window, never halted and
faulted at once, only defined device accesses recorded, and every draw the next element of its
stream (R154, R155, R301, R310, R311, R313, R316). -/
def Obligations.StepKeepsTheInvariant : Prop := ∀ s t : State, Invariant s → step s = .next t → Invariant t

/-- The invariant also survives a step that faults or is not taken. -/
def Obligations.StandingKeepsTheInvariant : Prop :=
  ∀ (k : Nat) (s : State), Invariant s → Invariant (stateAfter k s)

/-- The state right after reset meets the invariant. -/
def Obligations.ResetMeetsTheInvariant : Prop := Invariant State.reset

/-- Every launch, whatever its image, entry point, streams and register values, meets the invariant. -/
def Obligations.LaunchMeetsTheInvariant : Prop := ∀ l : Launch, Invariant (State.launch l)

/-- Two memories in canonical form that hold the same bytes are the same list (the model's own form,
log entry 2). -/
def Obligations.EqualMemoriesAreEqualLists : Prop :=
  ∀ m m' : Memory, m.wf = true → m'.wf = true → (∀ a : Nat, m.lookup a = m'.lookup a) → m = m'

/-! ## Start -/

/-- R331, R332, R333: at launch PC is `ENTRY_PC`, the registers and flags are unconstrained, nothing
is halted, marked or recorded, each byte of `IMAGE` is in its place, and every other byte is
unspecified: a free value fixed for its address. -/
def Obligations.LaunchStateIsAsGiven : Prop :=
  (∀ (regs : Vector Word 8) (pc sp ir : Word) (f : Flags), ∃ l : Launch,
    (State.launch l).regs = regs ∧ (State.launch l).pc = pc ∧ (State.launch l).sp = sp ∧
    (State.launch l).ir = ir ∧ (State.launch l).flags = f) ∧
  ∀ l : Launch,
    (State.launch l).pc = l.entryPc ∧ (State.launch l).halted = false ∧
    (State.launch l).faultMark = none ∧ (State.launch l).events = [] ∧
    ((l.image.map Prod.fst).Nodup → ∀ c ∈ l.image, IsStorage c.1 →
      readByte (State.launch l) c.1 = c.2) ∧
    (∀ a : Nat, (¬ IsStorage a ∨ ∀ c ∈ l.image, c.1 ≠ a) →
      (State.launch l).mem.lookup a = none ∧ readByte (State.launch l) a = Config.startByte a)

/-- What the spec states of the start (R138), and that reset is a launch: one with `ENTRY_PC` 0, no
image and, by the model's own choice (log entry 1), zeros in every register. -/
def Obligations.ResetIsALaunch : Prop :=
  State.reset.halted = false ∧ State.reset.faultMark = none ∧ State.reset.events = [] ∧
  State.reset = State.launch
    { entryPc := 0#16, image := [], consoleIn := [], timerIn := [], regs := Vector.replicate 8 0#16
      sp := 0#16, ir := 0#16
      flags := { z := false, n := false, c := false, o := false, reserved := 0#4 } }

/-- The word the host lays at PC is the one the next step runs (log entry 4). -/
def Obligations.HostWordRunsNext : Prop :=
  ∀ (s : State) (w : Word), Running s → Fetchable s.pc →
    step (s.withFetchWord 16 w.toNat) =
      exec (decode w) { s.withFetchWord 16 w.toNat with ir := w, pc := s.pc + 2#16 } ∧
    decodeTableWord 16 w.toNat = some (decode w) ∧
    MemoryUnchangedBut s.pc s (s.withFetchWord 16 w.toNat)

/-- R153: the three regions, their bounds, and that the RAM and stack regions are the plain storage. -/
def Obligations.MemoryMap : Prop :=
  ∀ a : Word,
    (regionOf a = .ram ↔ a.toNat ≤ 0xEFFF) ∧
    (regionOf a = .ioWindow ↔ 0xF000 ≤ a.toNat ∧ a.toNat ≤ 0xF0FF) ∧
    (regionOf a = .stack ↔ 0xF100 ≤ a.toNat) ∧
    (IsStorage a.toNat ↔ regionOf a = .ram ∨ regionOf a = .stack)

/-- R130: FLAGS as the 8-bit register: Z, N, C, O in bits 0 to 3, the reserved bits above, and no bit
lost either way. -/
def Obligations.FlagsRegisterLayout : Prop :=
  (∀ f : Flags, f.toByte.getLsbD 0 = f.z ∧ f.toByte.getLsbD 1 = f.n ∧ f.toByte.getLsbD 2 = f.c ∧
    f.toByte.getLsbD 3 = f.o ∧ (∀ k < 4, f.toByte.getLsbD (4 + k) = f.reserved.getLsbD k) ∧
    Flags.ofByte f.toByte = f) ∧
  ∀ b : Byte, (Flags.ofByte b).toByte = b

/-! ## The assembler -/

/-- What the assembler accepts has an encoding, and the word decodes to it. -/
def Obligations.AssembledInstructionsDecodeBack : Prop :=
  ∀ (labels : List (List Char × Nat)) (addr : Nat) (m : Asm.Mnemonic) (ops : List Asm.Operand)
    (i : Instr), Asm.translate labels addr m ops = .ok i →
    i.wellFormed = true ∧ decode (encode i) = i

/-- R198, for each of the four branches and the spelling B. A label whose distance from the address
after the branch is even and fits is translated to that distance, and the branch, taken, reaches the
label; any other distance is rejected. A number that is even and fits is the offset itself, whatever
labels there are; an odd number is rejected (R262), and so is one out of range (D25; log entry 6). -/
def Obligations.BranchToALabelReachesIt : Prop :=
  ∀ (labels : List (List Char × Nat)) (addr : Nat),
    (∀ (l : List Char) (target : Nat), labels.lookup l = some target →
      let d : Int := (target : Int) - ((addr : Int) + 2)
      (d % 2 = 0 ∧ -2048 ≤ d ∧ d ≤ 2047 →
        Asm.translate labels addr .BRANCH [.label l] = .ok (.branch d) ∧
        Asm.translate labels addr .B [.label l] = .ok (.branch d) ∧
        Asm.translate labels addr .BEQ [.label l] = .ok (.beq d) ∧
        Asm.translate labels addr .BNE [.label l] = .ok (.bne d) ∧
        Asm.translate labels addr .BLT [.label l] = .ok (.blt d) ∧
        ∀ s : State, s.pc = BitVec.ofNat 16 (addr + 2) →
          exec (.branch d) s = .next { s with pc := BitVec.ofNat 16 target } ∧
          (s.flags.z = true → exec (.beq d) s = .next { s with pc := BitVec.ofNat 16 target }) ∧
          (s.flags.z = false → exec (.bne d) s = .next { s with pc := BitVec.ofNat 16 target }) ∧
          (s.flags.n = true → exec (.blt d) s = .next { s with pc := BitVec.ofNat 16 target })) ∧
      (¬ (d % 2 = 0 ∧ -2048 ≤ d ∧ d ≤ 2047) → ∀ m i,
        m = .BRANCH ∨ m = .B ∨ m = .BEQ ∨ m = .BNE ∨ m = .BLT →
        Asm.translate labels addr m [.label l] ≠ .ok i)) ∧
    ∀ n : Int,
      (n % 2 = 0 ∧ -2048 ≤ n ∧ n ≤ 2047 →
        Asm.translate labels addr .BRANCH [.number n] = .ok (.branch n) ∧
        Asm.translate labels addr .B [.number n] = .ok (.branch n) ∧
        Asm.translate labels addr .BEQ [.number n] = .ok (.beq n) ∧
        Asm.translate labels addr .BNE [.number n] = .ok (.bne n) ∧
        Asm.translate labels addr .BLT [.number n] = .ok (.blt n)) ∧
      (¬ (n % 2 = 0 ∧ -2048 ≤ n ∧ n ≤ 2047) → ∀ m i,
        m = .BRANCH ∨ m = .B ∨ m = .BEQ ∨ m = .BNE ∨ m = .BLT →
        Asm.translate labels addr m [.number n] ≠ .ok i)

/-- R199, R201: the three literal forms are read as the source shows them; a literal that fits its
field is accepted as it stands, one that does not is rejected and never truncated, so that nothing is
answered for it; an imm9 literal `n` is encoded as `n mod 512`; ADDI and SUBI take only their
destination as source. -/
def Obligations.LiteralsAndSourceRegisters : Prop :=
  (Asm.parseOperand [.hash, .word ['1', '0']] = some (.imm 10) ∧
    Asm.parseOperand [.hash, .word ['0', 'x', '0', 'A']] = some (.imm 10) ∧
    Asm.parseOperand [.hash, .word ['0', 'x', 'F', '0', '0', '0']] = some (.imm 61440)) ∧
  ∀ (labels : List (List Char × Nat)) (addr : Nat) (rd rs : Reg) (n : Int),
    (-256 ≤ n ∧ n ≤ 255 →
      Asm.translate labels addr .LOADI [.reg rd, .imm n] = .ok (.loadi rd n) ∧
      Asm.translate labels addr .ADDI [.reg rd, .reg rd, .imm n] = .ok (.addi rd n) ∧
      Asm.translate labels addr .SUBI [.reg rd, .reg rd, .imm n] = .ok (.subi rd n) ∧
      ((encode (.loadi rd n)).toNat % 512 : Int) = n % 512 ∧
      ((encode (.addi rd n)).toNat % 512 : Int) = n % 512 ∧
      ((encode (.subi rd n)).toNat % 512 : Int) = n % 512) ∧
    (¬ (-256 ≤ n ∧ n ≤ 255) → ∀ i,
      Asm.translate labels addr .LOADI [.reg rd, .imm n] ≠ .ok i ∧
      Asm.translate labels addr .ADDI [.reg rd, .reg rs, .imm n] ≠ .ok i ∧
      Asm.translate labels addr .SUBI [.reg rd, .reg rs, .imm n] ≠ .ok i) ∧
    (-32 ≤ n ∧ n ≤ 31 →
      Asm.translate labels addr .LOAD [.reg rd, .mem rs n] = .ok (.load rd rs n) ∧
      Asm.translate labels addr .STORE [.reg rd, .mem rs n] = .ok (.store rd rs n)) ∧
    (¬ (-32 ≤ n ∧ n ≤ 31) → ∀ i,
      Asm.translate labels addr .LOAD [.reg rd, .mem rs n] ≠ .ok i ∧
      Asm.translate labels addr .STORE [.reg rd, .mem rs n] ≠ .ok i) ∧
    (rs ≠ rd → ∀ i,
      Asm.translate labels addr .ADDI [.reg rd, .reg rs, .imm n] ≠ .ok i ∧
      Asm.translate labels addr .SUBI [.reg rd, .reg rs, .imm n] ≠ .ok i)
end

