-- ==== Sys2Proof/Laws/Assembler.lean ====
section
/-! SUPPORT. What each function of the assembler can answer, said once. -/

namespace Sys2Proof.Machine.Asm

/-- An answer that goes through a first answer has that first answer. -/
theorem bind_eq_ok {α β : Type} {x : Except AsmError α} {f : α → Except AsmError β} {b : β} :
    x.bind f = .ok b ↔ ∃ a, x = .ok a ∧ f a = .ok b := by
  cases x <;> simp [Except.bind]

/-- An instruction is accepted as it stands, exactly when it fits (R199). -/
theorem inRange_eq_ok {i j : Instr} : inRange i = .ok j ↔ j = i ∧ i.wellFormed = true := by
  unfold inRange
  split <;> rename_i h <;> simp [h, eq_comm]

/-- ADDI and SUBI are accepted exactly when the source is the destination and the literal fits
(R201). -/
theorem sameRegister_eq_ok {rd rs : Reg} {i j : Instr} :
    sameRegister rd rs i = .ok j ↔ rs = rd ∧ j = i ∧ i.wellFormed = true := by
  unfold sameRegister
  split <;> rename_i h <;> simp [h, inRange_eq_ok]

/-- An offset is accepted as it stands, exactly when it is even (R198, R262). -/
theorem evenOffset_eq_ok {n k : Int} : branchOffset.evenOffset n = .ok k ↔ k = n ∧ n % 2 = 0 := by
  unfold branchOffset.evenOffset
  split <;> rename_i h <;> simp [h, eq_comm]

/-- A label stands for its distance from the address after the branch (R198). -/
theorem branchOffset_label {labels : List (List Char × Nat)} {l : List Char} {target : Nat}
    (addr : Nat) (h : labels.lookup l = some target) :
    branchOffset labels addr (.label l) =
      branchOffset.evenOffset ((target : Int) - ((addr : Int) + 2)) := by
  simp only [branchOffset, h]

/-- A number is the offset itself (R198). -/
theorem branchOffset_number (labels : List (List Char × Nat)) (addr : Nat) (n : Int) :
    branchOffset labels addr (.number n) = branchOffset.evenOffset n := rfl

end Sys2Proof.Machine.Asm
end

