-- ==== Sys2Proof/Laws/Decode.lean ====
section
/-! SUPPORT. Byte order, bit fields and formats, as numbers. -/

namespace Sys2Proof

/-- Placing `y` in the low `n` bits below `x`, as a number. -/
theorem shiftLeft_or_eq_add (n x y : Nat) (h : y < 2 ^ n) : x <<< n ||| y = x * 2 ^ n + y := by
  rw [Nat.shiftLeft_eq, Nat.mul_comm, ← Nat.two_pow_add_eq_or_of_lt h]

/-! ### Byte order (R157) -/

theorem wordOfBytes_toNat (lo hi : Byte) :
    (wordOfBytes lo hi).toNat = lo.toNat + 256 * hi.toNat := by
  simp only [wordOfBytes, BitVec.toNat_append]
  rw [shiftLeft_or_eq_add _ _ _ lo.isLt]
  omega

theorem lowByte_toNat (v : Word) : (lowByte v).toNat = v.toNat % 256 := by
  simp [lowByte, BitVec.extractLsb'_toNat]

theorem highByte_toNat (v : Word) : (highByte v).toNat = v.toNat / 256 := by
  have := v.isLt
  simp only [highByte, BitVec.extractLsb'_toNat, Nat.shiftRight_eq_div_pow]
  omega

@[simp] theorem lowByte_wordOfBytes (lo hi : Byte) : lowByte (wordOfBytes lo hi) = lo := by
  apply BitVec.eq_of_toNat_eq
  have := lo.isLt
  rw [lowByte_toNat, wordOfBytes_toNat]
  omega

@[simp] theorem highByte_wordOfBytes (lo hi : Byte) : highByte (wordOfBytes lo hi) = hi := by
  apply BitVec.eq_of_toNat_eq
  have := lo.isLt
  rw [highByte_toNat, wordOfBytes_toNat]
  omega

@[simp] theorem wordOfBytes_bytes (v : Word) : wordOfBytes (lowByte v) (highByte v) = v := by
  apply BitVec.eq_of_toNat_eq
  rw [wordOfBytes_toNat, lowByte_toNat, highByte_toNat]
  omega

/-- The spec's own form of the 16-bit read, `mem[a] | (mem[a + 1] << 8)` (R158). -/
theorem wordOfBytes_eq_or (lo hi : Byte) :
    wordOfBytes lo hi = (hi.setWidth 16 <<< 8) ||| lo.setWidth 16 := by
  apply BitVec.eq_of_toNat_eq
  have := lo.isLt
  have := hi.isLt
  simp only [BitVec.toNat_or, BitVec.toNat_shiftLeft, BitVec.toNat_setWidth, wordOfBytes_toNat]
  rw [Nat.mod_eq_of_lt (by omega : lo.toNat < 2 ^ 16), Nat.mod_eq_of_lt (by omega : hi.toNat < 2 ^ 16),
    Nat.mod_eq_of_lt (by rw [Nat.shiftLeft_eq]; omega), shiftLeft_or_eq_add _ _ _ lo.isLt]
  omega

theorem decodeBytes_pair (lo hi : Byte) (rest : List Byte) :
    decodeBytes (lo :: hi :: rest) = .ok (decode (wordOfBytes lo hi), rest) := rfl

/-! ### Words of the opcode table -/

@[simp] theorem tableWord_toNat (w : Word) : tableWord 16 w.toNat = w := by
  apply BitVec.eq_of_toNat_eq
  have := w.isLt
  simp only [tableWord, BitVec.toNat_ofNat]
  omega

theorem decodeTableWord_toNat (w : Word) : decodeTableWord 16 w.toNat = some (decode w) := by
  simp [decodeTableWord, decodeBytes_pair]

/-! ### Fields of a word, as numbers (R181, R184, R189) -/

theorem opcodeField_toNat (w : Word) : (opcodeField w).toNat = w.toNat / 4096 := by
  have := w.isLt
  simp only [opcodeField, BitVec.extractLsb'_toNat, Nat.shiftRight_eq_div_pow]
  omega

theorem regField_val (w : Word) (lo : Nat) : (regField w lo).val = w.toNat / 2 ^ lo % 8 := by
  simp only [regField, BitVec.val_toFin, BitVec.extractLsb'_toNat, Nat.shiftRight_eq_div_pow]

@[simp] theorem regBits_toNat (r : Reg) : (regBits r).toNat = r.val := rfl

/-- The value used of a field is its sign extension to 16 bits (R189). -/
theorem immWord_toInt {n : Nat} (v : BitVec n) : Machine.immWord v.toInt = v.signExtend 16 := rfl

theorem toInt_ofInt9 (n : Int) (h : fitsImm9 n = true) : (BitVec.ofInt 9 n).toInt = n := by
  simp only [fitsImm9, decide_eq_true_eq] at h
  rw [BitVec.toInt_ofInt, Int.bmod_eq_of_le] <;> omega

theorem toInt_ofInt6 (n : Int) (h : fitsOff6 n = true) : (BitVec.ofInt 6 n).toInt = n := by
  simp only [fitsOff6, decide_eq_true_eq] at h
  rw [BitVec.toInt_ofInt, Int.bmod_eq_of_le] <;> omega

theorem toInt_ofInt12 (n : Int) (h : fitsOff12 n = true) : (BitVec.ofInt 12 n).toInt = n := by
  simp only [fitsOff12, decide_eq_true_eq] at h
  rw [BitVec.toInt_ofInt, Int.bmod_eq_of_le] <;> omega

/-! ### The formats, as numbers (R183 to R188) -/

theorem format0_toNat (op : BitVec 4) : (format0 op).toNat = op.toNat * 4096 := by
  simp only [format0, BitVec.toNat_append]
  rw [shiftLeft_or_eq_add _ _ _ (by decide)]
  simp

theorem format1_toNat (op : BitVec 4) (rd rs1 rs2 : Reg) :
    (format1 op rd rs1 rs2).toNat =
      op.toNat * 4096 + rd.val * 512 + rs1.val * 64 + rs2.val * 8 := by
  simp only [format1, BitVec.toNat_append, regBits_toNat]
  rw [shiftLeft_or_eq_add 3 _ _ (by decide : (0#3).toNat < 2 ^ 3),
    shiftLeft_or_eq_add 3 _ rs2.val rs2.isLt, shiftLeft_or_eq_add 3 _ rs1.val rs1.isLt,
    shiftLeft_or_eq_add 3 _ rd.val rd.isLt]
  simp
  omega

theorem format2_toNat (op : BitVec 4) (rd : Reg) (n : Int) :
    (format2 op rd n).toNat = op.toNat * 4096 + rd.val * 512 + (BitVec.ofInt 9 n).toNat := by
  simp only [format2, BitVec.toNat_append, regBits_toNat]
  rw [shiftLeft_or_eq_add 9 _ _ (BitVec.ofInt 9 n).isLt, shiftLeft_or_eq_add 3 _ rd.val rd.isLt]
  omega

theorem format3_toNat (op : BitVec 4) (rd rs : Reg) (n : Int) :
    (format3 op rd rs n).toNat =
      op.toNat * 4096 + rd.val * 512 + rs.val * 64 + (BitVec.ofInt 6 n).toNat := by
  simp only [format3, BitVec.toNat_append, regBits_toNat]
  rw [shiftLeft_or_eq_add 6 _ _ (BitVec.ofInt 6 n).isLt, shiftLeft_or_eq_add 3 _ rs.val rs.isLt,
    shiftLeft_or_eq_add 3 _ rd.val rd.isLt]
  omega

theorem format4_toNat (op : BitVec 4) (n : Int) :
    (format4 op n).toNat = op.toNat * 4096 + (BitVec.ofInt 12 n).toNat := by
  simp only [format4, BitVec.toNat_append]
  rw [shiftLeft_or_eq_add 12 _ _ (BitVec.ofInt 12 n).isLt]
  omega

/-! ### The opcode of each format stands in the top four bits (R181) -/

theorem opcodeField_format0 (op : BitVec 4) : opcodeField (format0 op) = op := by
  apply BitVec.eq_of_toNat_eq
  rw [opcodeField_toNat, format0_toNat]
  omega

theorem opcodeField_format1 (op : BitVec 4) (rd rs1 rs2 : Reg) :
    opcodeField (format1 op rd rs1 rs2) = op := by
  apply BitVec.eq_of_toNat_eq
  rw [opcodeField_toNat, format1_toNat]
  omega

theorem opcodeField_format2 (op : BitVec 4) (rd : Reg) (n : Int) :
    opcodeField (format2 op rd n) = op := by
  apply BitVec.eq_of_toNat_eq
  have := (BitVec.ofInt 9 n).isLt
  rw [opcodeField_toNat, format2_toNat]
  omega

theorem opcodeField_format3 (op : BitVec 4) (rd rs : Reg) (n : Int) :
    opcodeField (format3 op rd rs n) = op := by
  apply BitVec.eq_of_toNat_eq
  have := (BitVec.ofInt 6 n).isLt
  rw [opcodeField_toNat, format3_toNat]
  omega

theorem opcodeField_format4 (op : BitVec 4) (n : Int) : opcodeField (format4 op n) = op := by
  apply BitVec.eq_of_toNat_eq
  have := (BitVec.ofInt 12 n).isLt
  rw [opcodeField_toNat, format4_toNat]
  omega

/-- The four bits `decode` matches on are the opcode field's (R181, R191). -/
theorem opcodeField_getLsbD (w : Word) (k : Nat) (h : k < 4) :
    (opcodeField w).getLsbD k = w.getLsbD (12 + k) := by
  simp [opcodeField, h]

end Sys2Proof
end

