-- ==== Sys2Proof/Laws/Flags.lean ====
section
/-! SUPPORT. What each flag computation and branch condition says (10_state.md R132 to R134). -/

namespace Sys2Proof.Machine

@[simp] theorem zeroOf_eq_true (r : Word) : zeroOf r = true ↔ r = 0#16 := by simp [zeroOf]

@[simp] theorem sumOf_eq_add (a b : Word) : sumOf a b = a + b := by
  apply BitVec.eq_of_toNat_eq
  simp [sumOf, exactSum]

/-- C is 1 exactly when the exact sum is 65536 or more (R211). -/
@[simp] theorem carryOf_eq_true (a b : Word) : carryOf a b = true ↔ 65536 ≤ a.toNat + b.toNat := by
  have := a.isLt
  have := b.isLt
  simp only [carryOf, exactSum, Nat.testBit_eq_decide_div_mod_eq, decide_eq_true_eq]
  omega

@[simp] theorem assignZN_z (f : Flags) (r : Word) : (assignZN f r).z = zeroOf r := rfl
@[simp] theorem assignZN_n (f : Flags) (r : Word) : (assignZN f r).n = negativeOf r := rfl
@[simp] theorem assignZN_c (f : Flags) (r : Word) : (assignZN f r).c = f.c := rfl
@[simp] theorem assignZN_o (f : Flags) (r : Word) : (assignZN f r).o = f.o := rfl
@[simp] theorem assignZN_reserved (f : Flags) (r : Word) :
    (assignZN f r).reserved = f.reserved := rfl

@[simp] theorem assignZNC_z (f : Flags) (a b : Word) :
    (assignZNC f a b).z = zeroOf (sumOf a b) := rfl
@[simp] theorem assignZNC_n (f : Flags) (a b : Word) :
    (assignZNC f a b).n = negativeOf (sumOf a b) := rfl
@[simp] theorem assignZNC_c (f : Flags) (a b : Word) : (assignZNC f a b).c = carryOf a b := rfl
@[simp] theorem assignZNC_o (f : Flags) (a b : Word) : (assignZNC f a b).o = f.o := rfl
@[simp] theorem assignZNC_reserved (f : Flags) (a b : Word) :
    (assignZNC f a b).reserved = f.reserved := rfl

end Sys2Proof.Machine
end

