-- ==== Sys2Proof/Laws/Memory.lean ====
section
/-! SUPPORT. The laws of memory: a read after a write, and the canonical form (log entry 2). -/

namespace Sys2Proof.Machine

/-! ### A read after a write (R154) -/

theorem Memory.lookup_insert (m : Memory) (a b : Nat) (v : Byte) :
    (m.insert a v).lookup b = if b = a then some v else m.lookup b := by
  induction m with
  | nil => simp [Memory.insert, Memory.lookup]
  | cons c m ih =>
    obtain ⟨k, w⟩ := c
    simp only [Memory.insert]
    split
    · simp [Memory.lookup]
    · split
      · subst_vars
        by_cases h : b = k <;> simp [Memory.lookup, h]
      · by_cases h : b = k
        · have : b ≠ a := by omega
          simp [Memory.lookup, h]
          omega
        · simp [Memory.lookup, h, ih]

theorem Memory.byteAt_insert (m : Memory) (a b : Nat) (v : Byte) :
    (m.insert a v).byteAt b = if b = a then v else m.byteAt b := by
  simp only [Memory.byteAt, Memory.lookup_insert]
  split <;> rfl

@[simp] theorem Memory.byteAt_insert_self (m : Memory) (a : Nat) (v : Byte) :
    (m.insert a v).byteAt a = v := by simp [Memory.byteAt_insert]

theorem Memory.byteAt_insert_other (m : Memory) {a b : Nat} (v : Byte) (h : b ≠ a) :
    (m.insert a v).byteAt b = m.byteAt b := by simp [Memory.byteAt_insert, h]

/-! ### The canonical form -/

theorem Memory.wf_iff (m : Memory) :
    m.wf = true ↔ (m.Pairwise fun p q => p.1 < q.1) ∧ ∀ c ∈ m, IsStorage c.1 := by
  simp only [Memory.wf, Bool.and_eq_true, decide_eq_true_eq, List.all_eq_true]

/-- Every cell after a write is the written one or one that stood there. -/
theorem Memory.mem_insert {m : Memory} {a : Nat} {v : Byte} {c : Host.Cell}
    (h : c ∈ m.insert a v) : c = (a, v) ∨ c ∈ m := by
  induction m with
  | nil => simpa [Memory.insert] using h
  | cons d m ih =>
    obtain ⟨k, w⟩ := d
    simp only [Memory.insert] at h
    split at h
    · simpa using h
    · split at h
      · rcases List.mem_cons.1 h with h | h
        · exact .inl h
        · exact .inr (List.mem_cons_of_mem _ h)
      · rcases List.mem_cons.1 h with h | h
        · exact .inr (h ▸ List.mem_cons_self ..)
        · exact (ih h).imp_right (List.mem_cons_of_mem _)

/-- A write keeps the addresses rising. -/
theorem Memory.pairwise_insert (m : Memory) (a : Nat) (v : Byte)
    (h : m.Pairwise fun p q => p.1 < q.1) :
    (m.insert a v).Pairwise fun p q => p.1 < q.1 := by
  induction m with
  | nil => simp [Memory.insert]
  | cons c m ih =>
    obtain ⟨k, w⟩ := c
    rw [List.pairwise_cons] at h
    simp only [Memory.insert]
    split
    · refine List.pairwise_cons.2 ⟨fun q hq => ?_, List.pairwise_cons.2 h⟩
      rcases List.mem_cons.1 hq with rfl | hq
      · assumption
      · have := h.1 q hq
        simp only at this ⊢
        omega
    · split
      · subst_vars
        exact List.pairwise_cons.2 ⟨h.1, h.2⟩
      · refine List.pairwise_cons.2 ⟨fun q hq => ?_, ih h.2⟩
        rcases Memory.mem_insert hq with rfl | hq
        · simp only
          omega
        · exact h.1 q hq

/-- A write to plain storage keeps the canonical form. -/
theorem Memory.wf_insert {m : Memory} {a : Nat} (v : Byte) (h : m.wf = true) (ha : IsStorage a) :
    (m.insert a v).wf = true := by
  rw [Memory.wf_iff] at h ⊢
  refine ⟨Memory.pairwise_insert m a v h.1, fun c hc => ?_⟩
  rcases Memory.mem_insert hc with rfl | hc
  · exact ha
  · exact h.2 c hc

/-- The host's placing of a byte keeps the canonical form, wherever it is aimed. -/
theorem Memory.wf_place {m : Memory} (a : Nat) (v : Byte) (h : m.wf = true) :
    (m.place a v).wf = true := by
  unfold Memory.place
  split
  · exact Memory.wf_insert v h ‹_›
  · exact h

theorem Memory.byteAt_place (m : Memory) {a : Nat} (b : Nat) (v : Byte) (ha : IsStorage a) :
    (m.place a v).byteAt b = if b = a then v else m.byteAt b := by
  rw [Memory.place, if_pos ha, Memory.byteAt_insert]

@[simp] theorem Memory.wf_nil : Memory.wf [] = true := rfl

end Sys2Proof.Machine
end

