-- ==== Sys2Proof/Laws/State.lean ====
section
/-! SUPPORT. What each update of State does to each field: one lemma for each field of each update, so
that no proof unfolds a record update. -/

namespace Sys2Proof.Machine

/-! ### writeReg -/

@[simp] theorem writeReg_regs (s : State) (i : Reg) (v : Word) :
    (writeReg s i v).regs = s.regs.set i.val v := rfl
@[simp] theorem writeReg_pc (s : State) (i : Reg) (v : Word) : (writeReg s i v).pc = s.pc := rfl
@[simp] theorem writeReg_sp (s : State) (i : Reg) (v : Word) : (writeReg s i v).sp = s.sp := rfl
@[simp] theorem writeReg_ir (s : State) (i : Reg) (v : Word) : (writeReg s i v).ir = s.ir := rfl
@[simp] theorem writeReg_flags (s : State) (i : Reg) (v : Word) :
    (writeReg s i v).flags = s.flags := rfl
@[simp] theorem writeReg_halted (s : State) (i : Reg) (v : Word) :
    (writeReg s i v).halted = s.halted := rfl
@[simp] theorem writeReg_faultMark (s : State) (i : Reg) (v : Word) :
    (writeReg s i v).faultMark = s.faultMark := rfl
@[simp] theorem writeReg_mem (s : State) (i : Reg) (v : Word) : (writeReg s i v).mem = s.mem := rfl
@[simp] theorem writeReg_events (s : State) (i : Reg) (v : Word) :
    (writeReg s i v).events = s.events := rfl
@[simp] theorem writeReg_consoleReads (s : State) (i : Reg) (v : Word) :
    (writeReg s i v).consoleReads = s.consoleReads := rfl
@[simp] theorem writeReg_timerReads (s : State) (i : Reg) (v : Word) :
    (writeReg s i v).timerReads = s.timerReads := rfl
@[simp] theorem writeReg_consoleIn (s : State) (i : Reg) (v : Word) :
    (writeReg s i v).consoleIn = s.consoleIn := rfl
@[simp] theorem writeReg_timerIn (s : State) (i : Reg) (v : Word) :
    (writeReg s i v).timerIn = s.timerIn := rfl

/-! ### writeResult -/

@[simp] theorem writeResult_regs (s : State) (rd : Reg) (r : Word) (f : Flags) :
    (writeResult s rd r f).regs = s.regs.set rd.val r := rfl
@[simp] theorem writeResult_pc (s : State) (rd : Reg) (r : Word) (f : Flags) :
    (writeResult s rd r f).pc = s.pc := rfl
@[simp] theorem writeResult_sp (s : State) (rd : Reg) (r : Word) (f : Flags) :
    (writeResult s rd r f).sp = s.sp := rfl
@[simp] theorem writeResult_ir (s : State) (rd : Reg) (r : Word) (f : Flags) :
    (writeResult s rd r f).ir = s.ir := rfl
@[simp] theorem writeResult_flags (s : State) (rd : Reg) (r : Word) (f : Flags) :
    (writeResult s rd r f).flags = f := rfl
@[simp] theorem writeResult_halted (s : State) (rd : Reg) (r : Word) (f : Flags) :
    (writeResult s rd r f).halted = s.halted := rfl
@[simp] theorem writeResult_faultMark (s : State) (rd : Reg) (r : Word) (f : Flags) :
    (writeResult s rd r f).faultMark = s.faultMark := rfl
@[simp] theorem writeResult_mem (s : State) (rd : Reg) (r : Word) (f : Flags) :
    (writeResult s rd r f).mem = s.mem := rfl
@[simp] theorem writeResult_events (s : State) (rd : Reg) (r : Word) (f : Flags) :
    (writeResult s rd r f).events = s.events := rfl
@[simp] theorem writeResult_consoleReads (s : State) (rd : Reg) (r : Word) (f : Flags) :
    (writeResult s rd r f).consoleReads = s.consoleReads := rfl
@[simp] theorem writeResult_timerReads (s : State) (rd : Reg) (r : Word) (f : Flags) :
    (writeResult s rd r f).timerReads = s.timerReads := rfl
@[simp] theorem writeResult_consoleIn (s : State) (rd : Reg) (r : Word) (f : Flags) :
    (writeResult s rd r f).consoleIn = s.consoleIn := rfl
@[simp] theorem writeResult_timerIn (s : State) (rd : Reg) (r : Word) (f : Flags) :
    (writeResult s rd r f).timerIn = s.timerIn := rfl

/-! ### recordEvent -/

@[simp] theorem recordEvent_regs (s : State) (e : IoEvent) : (recordEvent s e).regs = s.regs := rfl
@[simp] theorem recordEvent_pc (s : State) (e : IoEvent) : (recordEvent s e).pc = s.pc := rfl
@[simp] theorem recordEvent_sp (s : State) (e : IoEvent) : (recordEvent s e).sp = s.sp := rfl
@[simp] theorem recordEvent_ir (s : State) (e : IoEvent) : (recordEvent s e).ir = s.ir := rfl
@[simp] theorem recordEvent_flags (s : State) (e : IoEvent) :
    (recordEvent s e).flags = s.flags := rfl
@[simp] theorem recordEvent_halted (s : State) (e : IoEvent) :
    (recordEvent s e).halted = s.halted := rfl
@[simp] theorem recordEvent_faultMark (s : State) (e : IoEvent) :
    (recordEvent s e).faultMark = s.faultMark := rfl
@[simp] theorem recordEvent_mem (s : State) (e : IoEvent) : (recordEvent s e).mem = s.mem := rfl
@[simp] theorem recordEvent_events (s : State) (e : IoEvent) :
    (recordEvent s e).events = s.events ++ [e] := rfl
@[simp] theorem recordEvent_consoleReads (s : State) (e : IoEvent) :
    (recordEvent s e).consoleReads = s.consoleReads := rfl
@[simp] theorem recordEvent_timerReads (s : State) (e : IoEvent) :
    (recordEvent s e).timerReads = s.timerReads := rfl
@[simp] theorem recordEvent_consoleIn (s : State) (e : IoEvent) :
    (recordEvent s e).consoleIn = s.consoleIn := rfl
@[simp] theorem recordEvent_timerIn (s : State) (e : IoEvent) :
    (recordEvent s e).timerIn = s.timerIn := rfl

/-! ### faultedState -/

@[simp] theorem faultedState_regs (s : State) (f : Fault) : (faultedState s f).regs = s.regs := rfl
@[simp] theorem faultedState_pc (s : State) (f : Fault) : (faultedState s f).pc = s.pc := rfl
@[simp] theorem faultedState_sp (s : State) (f : Fault) : (faultedState s f).sp = s.sp := rfl
@[simp] theorem faultedState_ir (s : State) (f : Fault) : (faultedState s f).ir = s.ir := rfl
@[simp] theorem faultedState_flags (s : State) (f : Fault) :
    (faultedState s f).flags = s.flags := rfl
@[simp] theorem faultedState_halted (s : State) (f : Fault) :
    (faultedState s f).halted = s.halted := rfl
@[simp] theorem faultedState_faultMark (s : State) (f : Fault) :
    (faultedState s f).faultMark = some f := rfl
@[simp] theorem faultedState_mem (s : State) (f : Fault) : (faultedState s f).mem = s.mem := rfl
@[simp] theorem faultedState_events (s : State) (f : Fault) :
    (faultedState s f).events = s.events := rfl
@[simp] theorem faultedState_consoleReads (s : State) (f : Fault) :
    (faultedState s f).consoleReads = s.consoleReads := rfl
@[simp] theorem faultedState_timerReads (s : State) (f : Fault) :
    (faultedState s f).timerReads = s.timerReads := rfl
@[simp] theorem faultedState_consoleIn (s : State) (f : Fault) :
    (faultedState s f).consoleIn = s.consoleIn := rfl
@[simp] theorem faultedState_timerIn (s : State) (f : Fault) :
    (faultedState s f).timerIn = s.timerIn := rfl

/-! ### writeWord -/

@[simp] theorem writeWord_regs (s : State) (a v : Word) : (writeWord s a v).regs = s.regs := rfl
@[simp] theorem writeWord_pc (s : State) (a v : Word) : (writeWord s a v).pc = s.pc := rfl
@[simp] theorem writeWord_sp (s : State) (a v : Word) : (writeWord s a v).sp = s.sp := rfl
@[simp] theorem writeWord_ir (s : State) (a v : Word) : (writeWord s a v).ir = s.ir := rfl
@[simp] theorem writeWord_flags (s : State) (a v : Word) : (writeWord s a v).flags = s.flags := rfl
@[simp] theorem writeWord_halted (s : State) (a v : Word) :
    (writeWord s a v).halted = s.halted := rfl
@[simp] theorem writeWord_faultMark (s : State) (a v : Word) :
    (writeWord s a v).faultMark = s.faultMark := rfl
@[simp] theorem writeWord_mem (s : State) (a v : Word) :
    (writeWord s a v).mem = (s.mem.insert a.toNat (lowByte v)).insert (a.toNat + 1) (highByte v) := rfl
@[simp] theorem writeWord_events (s : State) (a v : Word) :
    (writeWord s a v).events = s.events := rfl
@[simp] theorem writeWord_consoleReads (s : State) (a v : Word) :
    (writeWord s a v).consoleReads = s.consoleReads := rfl
@[simp] theorem writeWord_timerReads (s : State) (a v : Word) :
    (writeWord s a v).timerReads = s.timerReads := rfl
@[simp] theorem writeWord_consoleIn (s : State) (a v : Word) :
    (writeWord s a v).consoleIn = s.consoleIn := rfl
@[simp] theorem writeWord_timerIn (s : State) (a v : Word) :
    (writeWord s a v).timerIn = s.timerIn := rfl

/-! ### afterFetch -/

@[simp] theorem afterFetch_regs (s : State) (w : Word) : (afterFetch s w).regs = s.regs := rfl
@[simp] theorem afterFetch_pc (s : State) (w : Word) : (afterFetch s w).pc = s.pc + 2#16 := rfl
@[simp] theorem afterFetch_sp (s : State) (w : Word) : (afterFetch s w).sp = s.sp := rfl
@[simp] theorem afterFetch_ir (s : State) (w : Word) : (afterFetch s w).ir = w := rfl
@[simp] theorem afterFetch_flags (s : State) (w : Word) : (afterFetch s w).flags = s.flags := rfl
@[simp] theorem afterFetch_halted (s : State) (w : Word) :
    (afterFetch s w).halted = s.halted := rfl
@[simp] theorem afterFetch_faultMark (s : State) (w : Word) :
    (afterFetch s w).faultMark = s.faultMark := rfl
@[simp] theorem afterFetch_mem (s : State) (w : Word) : (afterFetch s w).mem = s.mem := rfl
@[simp] theorem afterFetch_events (s : State) (w : Word) :
    (afterFetch s w).events = s.events := rfl
@[simp] theorem afterFetch_consoleReads (s : State) (w : Word) :
    (afterFetch s w).consoleReads = s.consoleReads := rfl
@[simp] theorem afterFetch_timerReads (s : State) (w : Word) :
    (afterFetch s w).timerReads = s.timerReads := rfl
@[simp] theorem afterFetch_consoleIn (s : State) (w : Word) :
    (afterFetch s w).consoleIn = s.consoleIn := rfl
@[simp] theorem afterFetch_timerIn (s : State) (w : Word) :
    (afterFetch s w).timerIn = s.timerIn := rfl

/-! ### placeAtPc -/

@[simp] theorem placeAtPc_regs (s : State) (w : Word) : (placeAtPc s w).regs = s.regs := rfl
@[simp] theorem placeAtPc_pc (s : State) (w : Word) : (placeAtPc s w).pc = s.pc := rfl
@[simp] theorem placeAtPc_sp (s : State) (w : Word) : (placeAtPc s w).sp = s.sp := rfl
@[simp] theorem placeAtPc_ir (s : State) (w : Word) : (placeAtPc s w).ir = s.ir := rfl
@[simp] theorem placeAtPc_flags (s : State) (w : Word) : (placeAtPc s w).flags = s.flags := rfl
@[simp] theorem placeAtPc_halted (s : State) (w : Word) : (placeAtPc s w).halted = s.halted := rfl
@[simp] theorem placeAtPc_faultMark (s : State) (w : Word) :
    (placeAtPc s w).faultMark = s.faultMark := rfl
@[simp] theorem placeAtPc_mem (s : State) (w : Word) :
    (placeAtPc s w).mem = (s.mem.place s.pc.toNat (lowByte w)).place (s.pc.toNat + 1) (highByte w) := rfl
@[simp] theorem placeAtPc_events (s : State) (w : Word) : (placeAtPc s w).events = s.events := rfl
@[simp] theorem placeAtPc_consoleReads (s : State) (w : Word) :
    (placeAtPc s w).consoleReads = s.consoleReads := rfl
@[simp] theorem placeAtPc_timerReads (s : State) (w : Word) :
    (placeAtPc s w).timerReads = s.timerReads := rfl
@[simp] theorem placeAtPc_consoleIn (s : State) (w : Word) :
    (placeAtPc s w).consoleIn = s.consoleIn := rfl
@[simp] theorem placeAtPc_timerIn (s : State) (w : Word) :
    (placeAtPc s w).timerIn = s.timerIn := rfl

/-! ### movePc -/

@[simp] theorem movePc_regs (d : Word) (s : State) : (movePc d s).regs = s.regs := rfl
@[simp] theorem movePc_pc (d : Word) (s : State) : (movePc d s).pc = s.pc + d := rfl
@[simp] theorem movePc_sp (d : Word) (s : State) : (movePc d s).sp = s.sp := rfl
@[simp] theorem movePc_ir (d : Word) (s : State) : (movePc d s).ir = s.ir := rfl
@[simp] theorem movePc_flags (d : Word) (s : State) : (movePc d s).flags = s.flags := rfl
@[simp] theorem movePc_halted (d : Word) (s : State) : (movePc d s).halted = s.halted := rfl
@[simp] theorem movePc_faultMark (d : Word) (s : State) :
    (movePc d s).faultMark = s.faultMark := rfl
@[simp] theorem movePc_mem (d : Word) (s : State) : (movePc d s).mem = s.mem := rfl
@[simp] theorem movePc_events (d : Word) (s : State) : (movePc d s).events = s.events := rfl
@[simp] theorem movePc_consoleReads (d : Word) (s : State) :
    (movePc d s).consoleReads = s.consoleReads := rfl
@[simp] theorem movePc_timerReads (d : Word) (s : State) :
    (movePc d s).timerReads = s.timerReads := rfl
@[simp] theorem movePc_consoleIn (d : Word) (s : State) :
    (movePc d s).consoleIn = s.consoleIn := rfl
@[simp] theorem movePc_timerIn (d : Word) (s : State) : (movePc d s).timerIn = s.timerIn := rfl

end Sys2Proof.Machine
end

