-- ==== Sys2Proof/Laws/Ops.lean ====
section
/-! SUPPORT. What each shared operation can do, said once: the lemmas a proof cites in the place of
unfolding it. -/

namespace Sys2Proof.Machine

/-! ### Registers -/

theorem readReg_writeReg (s : State) (i j : Reg) (v : Word) :
    readReg (writeReg s i v) j = if j = i then v else readReg s j := by
  simp only [readReg, writeReg_regs, Vector.getElem_set]
  by_cases h : j = i
  · simp [h]
  · have : i.val ≠ j.val := fun e => h (Fin.ext e.symm)
    simp [h, this]

@[simp] theorem readReg_writeReg_self (s : State) (i : Reg) (v : Word) :
    readReg (writeReg s i v) i = v := by simp [readReg_writeReg]

theorem readReg_writeReg_other (s : State) {i j : Reg} (v : Word) (h : j ≠ i) :
    readReg (writeReg s i v) j = readReg s j := by simp [readReg_writeReg, h]

@[simp] theorem readReg_writeResult_self (s : State) (rd : Reg) (r : Word) (f : Flags) :
    readReg (writeResult s rd r f) rd = r := readReg_writeReg_self s rd r

theorem readReg_writeResult_other (s : State) {rd j : Reg} (r : Word) (f : Flags) (h : j ≠ rd) :
    readReg (writeResult s rd r f) j = readReg s j := readReg_writeReg_other s r h

@[simp] theorem readReg_recordEvent (s : State) (e : IoEvent) (i : Reg) :
    readReg (recordEvent s e) i = readReg s i := rfl

@[simp] theorem readReg_writeWord (s : State) (a v : Word) (i : Reg) :
    readReg (writeWord s a v) i = readReg s i := rfl

@[simp] theorem readReg_afterFetch (s : State) (w : Word) (i : Reg) :
    readReg (afterFetch s w) i = readReg s i := rfl

/-! ### Bytes of memory -/

@[simp] theorem readByte_writeReg (s : State) (i : Reg) (v : Word) (a : Nat) :
    readByte (writeReg s i v) a = readByte s a := rfl

@[simp] theorem readByte_writeResult (s : State) (rd : Reg) (r : Word) (f : Flags) (a : Nat) :
    readByte (writeResult s rd r f) a = readByte s a := rfl

@[simp] theorem readByte_recordEvent (s : State) (e : IoEvent) (a : Nat) :
    readByte (recordEvent s e) a = readByte s a := rfl

@[simp] theorem readByte_afterFetch (s : State) (w : Word) (a : Nat) :
    readByte (afterFetch s w) a = readByte s a := rfl

theorem readByte_writeWord (s : State) (a v : Word) (b : Nat) :
    readByte (writeWord s a v) b =
      if b = a.toNat + 1 then highByte v else if b = a.toNat then lowByte v else readByte s b := by
  simp [readByte, Memory.byteAt_insert]

@[simp] theorem readByte_writeWord_low (s : State) (a v : Word) :
    readByte (writeWord s a v) a.toNat = lowByte v := by simp [readByte_writeWord]

@[simp] theorem readByte_writeWord_high (s : State) (a v : Word) :
    readByte (writeWord s a v) (a.toNat + 1) = highByte v := by simp [readByte_writeWord]

theorem readByte_writeWord_other (s : State) (a v : Word) {b : Nat} (h : b ≠ a.toNat)
    (h' : b ≠ a.toNat + 1) : readByte (writeWord s a v) b = readByte s b := by
  simp [readByte_writeWord, h, h']

@[simp] theorem readWord_writeWord_self (s : State) (a v : Word) :
    readWord (writeWord s a v) a = v := by simp [readWord]

/-! ### The address map -/

/-- Both bytes of a plain data access lie in plain storage. -/
theorem PlainData.storage {a : Word} (h : PlainData a) :
    IsStorage a.toNat ∧ IsStorage (a.toNat + 1) := by
  obtain ⟨h1, h2, h3⟩ := h
  have e1 : a.toNat ≠ 0xFFFF := fun e => h1 (BitVec.eq_of_toNat_eq e)
  have e2 : a.toNat ≠ 0xEFFF := fun e => h2 (BitVec.eq_of_toNat_eq e)
  have := a.isLt
  unfold InWindow at h3
  unfold IsStorage
  omega

/-- Both bytes of an instruction lie in plain storage (R160). -/
theorem Fetchable.storage {a : Word} (h : Fetchable a) :
    IsStorage a.toNat ∧ IsStorage (a.toNat + 1) := by
  obtain ⟨h1, h2⟩ := h
  have := a.isLt
  unfold InWindow at h2
  unfold IsStorage
  omega

theorem writeWord_wf {s : State} {a : Word} (v : Word) (h : s.mem.wf = true) (ha : PlainData a) :
    (writeWord s a v).mem.wf = true :=
  Memory.wf_insert _ (Memory.wf_insert _ h ha.storage.1) ha.storage.2

/-! ### Device accesses (R310, R311) -/

/-- Each device register is selected by one address (R155, R161). -/
theorem deviceAt_eq_some (a : Word) (d : Device) :
    deviceAt a = some d ↔
      a = match d with
        | .consoleOut => 0xF000#16
        | .consoleIn => 0xF001#16
        | .timerCtrl => 0xF002#16
        | .timerVal => 0xF003#16 := by
  constructor
  · intro h
    unfold deviceAt at h
    split at h
    · cases h; assumption
    split at h
    · cases h; assumption
    split at h
    · cases h; assumption
    split at h
    · cases h; assumption
    · cases h
  · rintro rfl
    cases d <;> rfl

theorem deviceAt_eq_none (a : Word) :
    deviceAt a = none ↔
      a ≠ 0xF000#16 ∧ a ≠ 0xF001#16 ∧ a ≠ 0xF002#16 ∧ a ≠ 0xF003#16 := by
  constructor
  · intro h
    refine ⟨?_, ?_, ?_, ?_⟩ <;> rintro rfl <;> cases h
  · rintro ⟨h0, h1, h2, h3⟩
    simp only [deviceAt, if_neg h0, if_neg h1, if_neg h2, if_neg h3]

/-- A device read that answers is a read of CONSOLE_IN or of TIMER_VAL. -/
theorem ioRead_ok {s t : State} {a v : Word} (h : ioRead s a = .ok (v, t)) :
    (a = 0xF001#16 ∧ v = consoleElement s s.consoleReads ∧
      t = { recordEvent s (.read a v) with consoleReads := s.consoleReads + 1 }) ∨
    (a = 0xF003#16 ∧ v = timerElement s s.timerReads ∧
      t = { recordEvent s (.read a v) with timerReads := s.timerReads + 1 }) := by
  unfold ioRead at h
  split at h
  · cases h
    exact .inl ⟨(deviceAt_eq_some _ _).1 ‹_›, rfl, rfl⟩
  · cases h
    exact .inr ⟨(deviceAt_eq_some _ _).1 ‹_›, rfl, rfl⟩
  all_goals cases h

/-- A device read that faults is one no rule defines (R317). -/
theorem ioRead_error {s : State} {a : Word} {f : Fault} (h : ioRead s a = .error f) :
    f = .ioUndefined a none ∧ a ≠ 0xF001#16 ∧ a ≠ 0xF003#16 := by
  have hn : a ≠ 0xF001#16 ∧ a ≠ 0xF003#16 := by
    constructor <;> rintro rfl <;> simp [ioRead, deviceAt] at h
  unfold ioRead at h
  split at h <;> cases h <;> exact ⟨rfl, hn⟩

/-- A device write that answers is recorded and does nothing else. -/
theorem ioWrite_ok {s t : State} {a v : Word} (h : ioWrite s a v = .ok t) :
    t = recordEvent s (.write a v) ∧
      (a = 0xF000#16 ∨ (a = 0xF002#16 ∧ (v = 0#16 ∨ v = 1#16)) ∨ a = 0xF003#16) := by
  unfold ioWrite at h
  split at h
  · cases h
    exact ⟨rfl, .inl ((deviceAt_eq_some _ _).1 ‹_›)⟩
  · split at h
    · cases h
      exact ⟨rfl, .inr (.inl ⟨(deviceAt_eq_some _ _).1 ‹_›, ‹_›⟩)⟩
    · cases h
  · cases h
    exact ⟨rfl, .inr (.inr ((deviceAt_eq_some _ _).1 ‹_›))⟩
  all_goals cases h

/-- A device write that faults is one no rule defines (R317). -/
theorem ioWrite_error {s : State} {a v : Word} {f : Fault} (h : ioWrite s a v = .error f) :
    f = .ioUndefined a (some v) ∧
      ¬ (a = 0xF000#16 ∨ (a = 0xF002#16 ∧ (v = 0#16 ∨ v = 1#16)) ∨ a = 0xF003#16) := by
  have hn : ¬ (a = 0xF000#16 ∨ (a = 0xF002#16 ∧ (v = 0#16 ∨ v = 1#16)) ∨ a = 0xF003#16) := by
    rintro (rfl | ⟨rfl, hv⟩ | rfl)
    · simp [ioWrite, deviceAt] at h
    · have e : deviceAt 0xF002#16 = some .timerCtrl := rfl
      simp [ioWrite, e, hv] at h
    · have e : deviceAt 0xF003#16 = some .timerVal := rfl
      simp [ioWrite, e] at h
  refine ⟨?_, hn⟩
  unfold ioWrite at h
  split at h
  · cases h
  · split at h <;> cases h
    rfl
  all_goals cases h
  all_goals rfl

/-! ### Data accesses (R158, R159) -/

/-- A data read answers from plain storage, changing nothing, or from a device. -/
theorem memRead_ok {s t : State} {a v : Word} (h : memRead s a = .ok (v, t)) :
    (PlainData a ∧ v = readWord s a ∧ t = s) ∨ (InWindow a ∧ ioRead s a = .ok (v, t)) := by
  unfold memRead at h
  split at h
  · cases h
  split at h
  · cases h
  split at h
  · exact .inr ⟨‹_›, h⟩
  · simp only [Except.ok.injEq, Prod.mk.injEq] at h
    exact .inl ⟨⟨‹_›, ‹_›, ‹_›⟩, h.1.symm, h.2.symm⟩

theorem memRead_plain {s : State} {a : Word} (h : PlainData a) :
    memRead s a = .ok (readWord s a, s) := by
  obtain ⟨h1, h2, h3⟩ := h
  simp only [memRead, if_neg h1, if_neg h2, if_neg h3]

theorem memRead_window {s : State} {a : Word} (h : InWindow a) : memRead s a = ioRead s a := by
  have h1 : a ≠ 0xFFFF#16 := by rintro rfl; revert h; decide
  have h2 : a ≠ 0xEFFF#16 := by rintro rfl; revert h; decide
  simp only [memRead, if_neg h1, if_neg h2, if_pos h]

/-- A data write answers with both bytes stored in plain storage, or with a device's answer. -/
theorem memWrite_ok {s t : State} {a v : Word} (h : memWrite s a v = .ok t) :
    (PlainData a ∧ t = writeWord s a v) ∨ (InWindow a ∧ ioWrite s a v = .ok t) := by
  unfold memWrite at h
  split at h
  · cases h
  split at h
  · cases h
  split at h
  · exact .inr ⟨‹_›, h⟩
  · simp only [Except.ok.injEq] at h
    exact .inl ⟨⟨‹_›, ‹_›, ‹_›⟩, h.symm⟩

theorem memWrite_plain {s : State} {a : Word} (v : Word) (h : PlainData a) :
    memWrite s a v = .ok (writeWord s a v) := by
  obtain ⟨h1, h2, h3⟩ := h
  simp only [memWrite, if_neg h1, if_neg h2, if_neg h3]

theorem memWrite_window {s : State} {a : Word} (v : Word) (h : InWindow a) :
    memWrite s a v = ioWrite s a v := by
  have h1 : a ≠ 0xFFFF#16 := by rintro rfl; revert h; decide
  have h2 : a ≠ 0xEFFF#16 := by rintro rfl; revert h; decide
  simp only [memWrite, if_neg h1, if_neg h2, if_pos h]

/-- A data read that faults: the last byte of the space, the byte below the window, or a device
access no rule defines (R302). -/
theorem memRead_error {s : State} {a : Word} {f : Fault} (h : memRead s a = .error f) :
    (a = 0xFFFF#16 ∧ f = .addressWrap a) ∨ (a = 0xEFFF#16 ∧ f = .ioStraddle a) ∨
      (InWindow a ∧ ioRead s a = .error f) := by
  unfold memRead at h
  split at h
  · cases h
    exact .inl ⟨‹_›, rfl⟩
  split at h
  · cases h
    exact .inr (.inl ⟨‹_›, rfl⟩)
  split at h
  · exact .inr (.inr ⟨‹_›, h⟩)
  · cases h

/-- A data write that faults: at the same addresses, or a device access no rule defines (R302). -/
theorem memWrite_error {s : State} {a v : Word} {f : Fault} (h : memWrite s a v = .error f) :
    (a = 0xFFFF#16 ∧ f = .addressWrap a) ∨ (a = 0xEFFF#16 ∧ f = .ioStraddle a) ∨
      (InWindow a ∧ ioWrite s a v = .error f) := by
  unfold memWrite at h
  split at h
  · cases h
    exact .inl ⟨‹_›, rfl⟩
  split at h
  · cases h
    exact .inr (.inl ⟨‹_›, rfl⟩)
  split at h
  · exact .inr (.inr ⟨‹_›, h⟩)
  · cases h

/-! ### The fetch phase (R160) -/

theorem fetchRead_ok {s : State} {a w : Word} (h : fetchRead s a = .ok w) :
    Fetchable a ∧ w = readWord s a := by
  unfold fetchRead at h
  split at h
  · cases h
  split at h
  · cases h
  · simp only [Except.ok.injEq] at h
    exact ⟨⟨by omega, ‹_›⟩, h.symm⟩

theorem fetchRead_fetchable {s : State} {a : Word} (h : Fetchable a) :
    fetchRead s a = .ok (readWord s a) := by
  have h1 : ¬ a.toNat % 2 = 1 := by have := h.1; omega
  simp only [fetchRead, if_neg h1, if_neg h.2]

theorem fetchRead_error {s : State} {a : Word} {f : Fault} (h : fetchRead s a = .error f) :
    (a.toNat % 2 = 1 ∧ f = .misalignedFetch a) ∨
      (a.toNat % 2 = 0 ∧ InWindow a ∧ f = .fetchFromIo a) := by
  unfold fetchRead at h
  split at h
  · simp only [Except.error.injEq] at h
    exact .inl ⟨‹_›, h.symm⟩
  split at h
  · simp only [Except.error.injEq] at h
    exact .inr ⟨by omega, ‹_›, h.symm⟩
  · cases h

end Sys2Proof.Machine
end

