-- ==== Sys2Proof/Laws/PerInstr.lean ====
section
/-! SUPPORT. What holds of each instruction as syntax, one lemma for each constructor. -/

namespace Sys2Proof.Laws.EncodeOpcode

/-- The top four bits of the canonical word are the instruction's opcode (R181, R190). -/
def Statement (i : Instr) : Prop := opcodeField (encode i) = i.opcode

theorem nop : Statement .nop := opcodeField_format0 _
theorem add (rd rs1 rs2 : Reg) : Statement (.add rd rs1 rs2) := opcodeField_format1 ..
theorem addi (rd : Reg) (imm : Int) : Statement (.addi rd imm) := opcodeField_format2 ..
theorem sub (rd rs1 rs2 : Reg) : Statement (.sub rd rs1 rs2) := opcodeField_format1 ..
theorem subi (rd : Reg) (imm : Int) : Statement (.subi rd imm) := opcodeField_format2 ..
theorem and (rd rs1 rs2 : Reg) : Statement (.and rd rs1 rs2) := opcodeField_format1 ..
theorem or (rd rs1 rs2 : Reg) : Statement (.or rd rs1 rs2) := opcodeField_format1 ..
theorem xor (rd rs1 rs2 : Reg) : Statement (.xor rd rs1 rs2) := opcodeField_format1 ..
theorem load (rd rs : Reg) (off : Int) : Statement (.load rd rs off) := opcodeField_format3 ..
theorem store (rd rs : Reg) (off : Int) : Statement (.store rd rs off) := opcodeField_format3 ..
theorem loadi (rd : Reg) (imm : Int) : Statement (.loadi rd imm) := opcodeField_format2 ..
theorem branch (off : Int) : Statement (.branch off) := opcodeField_format4 ..
theorem beq (off : Int) : Statement (.beq off) := opcodeField_format4 ..
theorem bne (off : Int) : Statement (.bne off) := opcodeField_format4 ..
theorem blt (off : Int) : Statement (.blt off) := opcodeField_format4 ..
theorem halt : Statement .halt := opcodeField_format0 _

end Sys2Proof.Laws.EncodeOpcode
end

