-- ==== Sys2Proof/Laws/Step.lean ====
section
/-! SUPPORT. What `exec` and `step` can do, said once. -/

namespace Sys2Proof.Machine

/-! ### The shared shapes of the meanings -/

theorem branchIf_eq (taken : Bool) (off : Int) (s : State) :
    branchIf taken off s =
      .next (if taken = true then { s with pc := branchTarget s.pc off } else s) := rfl

/-- A LOAD whose read answers writes the value to its register (R241). -/
theorem exec_load_of_memRead {rd rs : Reg} {off : Int} {s u : State} {v : Word}
    (h : memRead s (effectiveAddress s rs off) = .ok (v, u)) :
    exec (.load rd rs off) s = .next (writeReg u rd v) := by simp only [exec, execLoad, h]

/-- A STORE whose write answers goes on to the state after the write (R242). -/
theorem exec_store_of_memWrite {rd rs : Reg} {off : Int} {s u : State}
    (h : memWrite s (effectiveAddress s rs off) (readReg s rd) = .ok u) :
    exec (.store rd rs off) s = .next u := by simp only [exec, execStore, h]

/-- A LOAD that goes on has read from plain storage or from a device (R241). -/
theorem execLoad_next {rd rs : Reg} {off : Int} {s t : State}
    (h : execLoad rd rs off s = .next t) :
    ∃ v u, memRead s (effectiveAddress s rs off) = .ok (v, u) ∧ t = writeReg u rd v := by
  unfold execLoad raiseFault at h
  split at h
  · cases h
  · cases h
    exact ⟨_, _, ‹_›, rfl⟩

/-- A LOAD stops only where its read does (R241). -/
theorem execLoad_fault {rd rs : Reg} {off : Int} {s : State} {f : Fault}
    (h : execLoad rd rs off s = .fault f) :
    memRead s (effectiveAddress s rs off) = .error f := by
  unfold execLoad raiseFault at h
  split at h
  · cases h
    assumption
  · cases h

/-- A STORE that goes on has written to plain storage or to a device (R242). -/
theorem execStore_next {rd rs : Reg} {off : Int} {s t : State}
    (h : execStore rd rs off s = .next t) :
    memWrite s (effectiveAddress s rs off) (readReg s rd) = .ok t := by
  unfold execStore raiseFault at h
  split at h
  · cases h
  · cases h
    assumption

/-- A STORE stops only where its write does (R242). -/
theorem execStore_fault {rd rs : Reg} {off : Int} {s : State} {f : Fault}
    (h : execStore rd rs off s = .fault f) :
    memWrite s (effectiveAddress s rs off) (readReg s rd) = .error f := by
  unfold execStore raiseFault at h
  split at h
  · cases h
    assumption
  · cases h

/-! ### One step -/

theorem step_of_fetch {s : State} (h : Running s) (hp : Fetchable s.pc) :
    step s = exec (decode (readWord s s.pc)) (afterFetch s (readWord s s.pc)) := by
  simp [step, h.1, h.2, fetchRead_fetchable hp]

/-- A step that goes on has fetched, decoded and executed one instruction (R112). -/
theorem step_next {s t : State} (h : step s = .next t) :
    Running s ∧ Fetchable s.pc ∧
      exec (decode (readWord s s.pc)) (afterFetch s (readWord s s.pc)) = .next t := by
  unfold step raiseFault at h
  split at h
  · cases h
  · rename_i hh
    cases hm : s.faultMark with
    | some f => simp [hm] at h
    | none =>
      cases hf : fetchRead s s.pc with
      | error f => simp [hm, hf] at h
      | ok w =>
        obtain ⟨hp, rfl⟩ := fetchRead_ok hf
        simp only [hm, hf] at h
        exact ⟨⟨by simpa using hh, hm⟩, hp, h⟩

/-- A step that faults is in its fault already, or the fetch phase faults, or the execute phase does
(R301, R302). -/
theorem step_fault {s : State} {f : Fault} (h : step s = .fault f) :
    s.faultMark = some f ∨ (Running s ∧ fetchRead s s.pc = .error f) ∨
      (Running s ∧ Fetchable s.pc ∧
        exec (decode (readWord s s.pc)) (afterFetch s (readWord s s.pc)) = .fault f) := by
  unfold step raiseFault at h
  split at h
  · cases h
  · rename_i hh
    cases hm : s.faultMark with
    | some g =>
      simp only [hm] at h
      cases h
      exact .inl rfl
    | none =>
      have hr : Running s := ⟨by simpa using hh, hm⟩
      cases hf : fetchRead s s.pc with
      | error g =>
        simp only [hm, hf] at h
        cases h
        exact .inr (.inl ⟨hr, rfl⟩)
      | ok w =>
        obtain ⟨hp, rfl⟩ := fetchRead_ok hf
        simp only [hm, hf] at h
        exact .inr (.inr ⟨hr, hp, h⟩)

end Sys2Proof.Machine
end

