-- ==== Sys2Proof/Tests/Slice0.lean ====
section
/-! SUPPORT. The model's own tests. Expected results come from the worked examples, tables and derived
vectors of 95_test_vectors.md (the section is named at each test) or from the rule named. The last
part holds, for each statement of Obligations.lean that has hypotheses, a theorem that meets them. -/

namespace Sys2Proof.Tests

open Sys2Proof Sys2Proof.Machine

/-! ## Ill-formed terms are refused, the ends of each range accepted (R189) -/

theorem test_wellFormed_imm9 :
    Instr.wellFormed (.loadi 0 256) = false ∧ Instr.wellFormed (.loadi 0 (-257)) = false ∧
    Instr.wellFormed (.loadi 0 0xF000) = false ∧ Instr.wellFormed (.addi 7 256) = false ∧
    Instr.wellFormed (.subi 7 (-257)) = false ∧
    Instr.wellFormed (.loadi 0 255) = true ∧ Instr.wellFormed (.loadi 0 (-256)) = true ∧
    Instr.wellFormed (.addi 7 (-256)) = true ∧ Instr.wellFormed (.subi 7 255) = true := by decide

theorem test_wellFormed_off6 :
    Instr.wellFormed (.load 0 1 32) = false ∧ Instr.wellFormed (.store 0 1 (-33)) = false ∧
    Instr.wellFormed (.load 0 1 (-33)) = false ∧ Instr.wellFormed (.store 0 1 32) = false ∧
    Instr.wellFormed (.load 0 1 (-32)) = true ∧ Instr.wellFormed (.store 0 1 31) = true := by decide

theorem test_wellFormed_off12 :
    Instr.wellFormed (.branch 2048) = false ∧ Instr.wellFormed (.beq (-2049)) = false ∧
    Instr.wellFormed (.bne 2048) = false ∧ Instr.wellFormed (.blt (-2049)) = false ∧
    Instr.wellFormed (.branch (-2048)) = true ∧ Instr.wellFormed (.beq 2047) = true ∧
    Instr.wellFormed (.bne 3) = true ∧ Instr.wellFormed (.blt 2046) = true := by decide

/-! ## Decoding: each instruction's word, written out field by field from its format (R183 to R188) -/

/-- R188. -/
theorem test_decode_nop : decode 0b0000_000000000000 = .nop ∧ encode (.nop) = 0b0000_000000000000 := by decide

/-- A1, R183. -/
theorem test_decode_add : decode 0b0001_001_010_011_000 = .add 1 2 3 ∧ encode (.add 1 2 3) = 0b0001_001_010_011_000 := by decide

/-- B1, R185. -/
theorem test_decode_addi : decode 0b0010_000_111111111 = .addi 0 (-1) ∧ encode (.addi 0 (-1)) = 0b0010_000_111111111 := by decide

/-- A5, R183. -/
theorem test_decode_sub : decode 0b0011_011_100_101_000 = .sub 3 4 5 ∧ encode (.sub 3 4 5) = 0b0011_011_100_101_000 := by decide

/-- B1, R185. -/
theorem test_decode_subi : decode 0b0100_011_000001010 = .subi 3 10 ∧ encode (.subi 3 10) = 0b0100_011_000001010 := by decide

/-- A5, R183. -/
theorem test_decode_and : decode 0b0101_000_001_010_000 = .and 0 1 2 ∧ encode (.and 0 1 2) = 0b0101_000_001_010_000 := by decide

/-- A5, R183. -/
theorem test_decode_or : decode 0b0110_000_001_010_000 = .or 0 1 2 ∧ encode (.or 0 1 2) = 0b0110_000_001_010_000 := by decide

/-- A5, R183. -/
theorem test_decode_xor : decode 0b0111_000_001_010_000 = .xor 0 1 2 ∧ encode (.xor 0 1 2) = 0b0111_000_001_010_000 := by decide

/-- B1, R186. -/
theorem test_decode_load : decode 0b1000_111_110_100000 = .load 7 6 (-32) ∧ encode (.load 7 6 (-32)) = 0b1000_111_110_100000 := by decide

/-- B1, R186. -/
theorem test_decode_store : decode 0b1001_111_110_011111 = .store 7 6 31 ∧ encode (.store 7 6 31) = 0b1001_111_110_011111 := by decide

/-- A2, R185. -/
theorem test_decode_loadi : decode 0b1010_000_000101010 = .loadi 0 42 ∧ encode (.loadi 0 42) = 0b1010_000_000101010 := by decide

/-- A3, R187. -/
theorem test_decode_branch : decode 0b1011_111111111100 = .branch (-4) ∧ encode (.branch (-4)) = 0b1011_111111111100 := by decide

/-- B5, R187. -/
theorem test_decode_beq : decode 0b1100_000000000110 = .beq 6 ∧ encode (.beq 6) = 0b1100_000000000110 := by decide

/-- B5, R187. -/
theorem test_decode_bne : decode 0b1101_111111111010 = .bne (-6) ∧ encode (.bne (-6)) = 0b1101_111111111010 := by decide

/-- R187, R189. -/
theorem test_decode_blt : decode 0b1110_100000000000 = .blt (-2048) ∧ encode (.blt (-2048)) = 0b1110_100000000000 := by decide

/-- R188. -/
theorem test_decode_halt : decode 0b1111_000000000000 = .halt ∧ encode (.halt) = 0b1111_000000000000 := by decide

/-- B1: words with something in the unused bits, and the word the source printed wrongly (C2). -/
theorem test_decode_unused_bits :
    decode 0x129F = .add 1 2 3 ∧ decode 0x1290 = .add 1 2 2 ∧ decode 0x0ABC = .nop ∧
    decode 0xFFFF = .halt := by decide

/-- R180: fewer than two bytes are no instruction; two bytes are one, low byte first (A6). -/
theorem test_decodeBytes :
    decodeBytes [] = .error .truncated ∧ decodeBytes [0xA0] = .error .truncated ∧
    decodeBytes [0xFC, 0xBF, 0x00] = .ok (.branch (-4), [0x00]) := by decide

/-- The opcode table's numbering: 16 bits in one word; a longer word is no instruction. -/
theorem test_decodeTableWord :
    decodeTableWord 16 0xA02A = some (.loadi 0 42) ∧ decodeTableWord 32 0xA02A = none := by decide

/-! ## One step of each instruction

A step starts at 0x0100 with the flags and registers given (section B). -/

/-- Flags with Z, N, C, O as given and the reserved bits 1010. -/
def flagsOf (z n c o : Bool) : Flags := { z := z, n := n, c := c, o := o, reserved := 0xA#4 }

/-- A launch at `pc` with the registers, the flags and the image given. -/
def start (pc : Word) (regs : Vector Word 8) (f : Flags) (image : List Host.Cell) : State :=
  State.launch { entryPc := pc, image := image, consoleIn := [0x0041#16], timerIn := [0x1234#16]
                 regs := regs, sp := 0x5555#16, ir := 0x6666#16, flags := f }

/-- A launch at 0x0100 with the word `w` there, and R0 to R3 as given. -/
def one (w a b c d : Word) (f : Flags) : State :=
  start 0x0100#16 #v[a, b, c, d, 0x4444, 0x5555, 0x6666, 0x7777] f (imageOfWords 0x100 [w])

/-- The answer is a next state with the property. -/
def next (o : Outcome) (p : State → Bool) : Bool :=
  match o with
  | .next t => p t
  | .fault _ | .refused _ => false

/-- The answer is the fault `f`. -/
def faults (o : Outcome) (f : Fault) : Bool :=
  match o with
  | .fault g => decide (g = f)
  | .next _ | .refused _ => false

/-- The answer is the refusal of a halted machine. -/
def stuck (o : Outcome) : Bool :=
  match o with
  | .refused r => decide (r = .halted)
  | .next _ | .fault _ => false

theorem exists_of_next {o : Outcome} (h : (next o fun _ => true) = true) : ∃ t, o = .next t := by
  cases o with
  | next t => exact ⟨t, rfl⟩
  | fault f => cases h
  | refused r => cases h

theorem eq_of_faults {o : Outcome} {f : Fault} (h : faults o f = true) : o = .fault f := by
  cases o with
  | next t => cases h
  | fault g => exact congrArg _ (of_decide_eq_true h)
  | refused r => cases h

/-- B2: flags before 1 1 1 1. -/
theorem test_step_add_clears_flags :
    (next (step (one 0x1298 0 0 1 1 (flagsOf true true true true))) fun t =>
      decide (readReg t 1 = 2 ∧ t.flags = flagsOf false false false true ∧ t.pc = 0x0102 ∧ t.ir = 0x1298)) = true := by decide

/-- B2: 0x8000 + 0x8000. -/
theorem test_step_add_carries :
    (next (step (one 0x1298 0 0 0x8000 0x8000 (flagsOf false false false false))) fun t =>
      decide (readReg t 1 = 0 ∧ t.flags = flagsOf true false true false)) = true := by decide

/-- B2: 0 + (-1). -/
theorem test_step_addi_minus_one :
    (next (step (one 0x21FF 0 0 0 0 (flagsOf true false true true))) fun t =>
      decide (readReg t 0 = 0xFFFF ∧ t.flags = flagsOf false true true true)) = true := by decide

/-- B2: 0xFFFF + 1, C stays 1. -/
theorem test_step_addi_keeps_carry :
    (next (step (one 0x2001 0xFFFF 0 0 0 (flagsOf true true true true))) fun t =>
      decide (readReg t 0 = 0 ∧ t.flags = flagsOf true false true true)) = true := by decide

/-- B2: 0 - 1, the first source is the minuend. -/
theorem test_step_sub_order :
    (next (step (one 0x3408 0 1 0 0 (flagsOf true true true true))) fun t =>
      decide (readReg t 2 = 0xFFFF ∧ t.flags = flagsOf false true true true)) = true := by decide

/-- B2: 0x8000 - 1. -/
theorem test_step_sub_signed_overflow :
    (next (step (one 0x3408 0x8000 1 0 0 (flagsOf true true false false))) fun t =>
      decide (readReg t 2 = 0x7FFF ∧ t.flags = flagsOf false false false false)) = true := by decide

/-- B2: 5 - 10. -/
theorem test_step_subi_below_zero :
    (next (step (one 0x460A 0 0 0 5 (flagsOf true false true false))) fun t =>
      decide (readReg t 3 = 0xFFFB ∧ t.flags = flagsOf false true true false)) = true := by decide

/-- B2: 0xFF00 - (-256). -/
theorem test_step_subi_sign_extends :
    (next (step (one 0x4700 0 0 0 0xFF00 (flagsOf false true false false))) fun t =>
      decide (readReg t 3 = 0 ∧ t.flags = flagsOf true false false false)) = true := by decide

/-- B3: 0xF0F0 & 0x0FF0. -/
theorem test_step_and :
    (next (step (one 0x5050 0 0xF0F0 0x0FF0 0 (flagsOf true true true true))) fun t =>
      decide (readReg t 0 = 0x00F0 ∧ t.flags = flagsOf false false true true)) = true := by decide

/-- B3: 0xF0F0 | 0x0FF0. -/
theorem test_step_or :
    (next (step (one 0x6050 0 0xF0F0 0x0FF0 0 (flagsOf true false false true))) fun t =>
      decide (readReg t 0 = 0xFFF0 ∧ t.flags = flagsOf false true false true)) = true := by decide

/-- B3: 0x1234 ^ 0xFFFF. -/
theorem test_step_xor :
    (next (step (one 0x7050 0 0x1234 0xFFFF 0 (flagsOf true false true false))) fun t =>
      decide (readReg t 0 = 0xEDCB ∧ t.flags = flagsOf false true true false)) = true := by decide

/-- B3: R1 ^ R1. -/
theorem test_step_xor_self :
    (next (step (one 0x7048 9 0xBEEF 0 0 (flagsOf false true false false))) fun t =>
      decide (readReg t 0 = 0 ∧ t.flags = flagsOf true false false false)) = true := by decide

/-- B4: STORE R0, [R2 + 8]. -/
theorem test_step_store :
    (next (step (one 0x9088 0xBEEF 0 0x2000 0 (flagsOf true false true false))) fun t =>
      decide (readByte t 0x2008 = 0xEF ∧ readByte t 0x2009 = 0xBE ∧ t.flags = flagsOf true false true false)) = true := by decide

/-- B4: 0xFFFE, the highest legal address. -/
theorem test_step_store_top :
    (next (step (one 0x9040 0x5A5B 0xFFFE 0 0 (flagsOf false false false false))) fun t =>
      decide (readByte t 0xFFFE = 0x5B ∧ readByte t 0xFFFF = 0x5A ∧ readReg t 1 = 0xFFFE)) = true := by decide

/-- B4: LOADI R2, #-256. -/
theorem test_step_loadi_sign_extends :
    (next (step (one 0xA500 0 0 0 0 (flagsOf true false true false))) fun t =>
      decide (readReg t 2 = 0xFF00 ∧ t.flags = flagsOf true false true false)) = true := by decide

/-- B4: LOADI R0, #0, Z stays 0. -/
theorem test_step_loadi_zero_keeps_z :
    (next (step (one 0xA000 7 0 0 0 (flagsOf false true false false))) fun t =>
      decide (readReg t 0 = 0 ∧ t.flags = flagsOf false true false false)) = true := by decide

/-- B5: BRANCH -2. -/
theorem test_step_branch_to_itself :
    (next (step (one 0xBFFE 0 0 0 0 (flagsOf false false false false))) fun t =>
      decide (t.pc = 0x0100 ∧ t.ir = 0xBFFE)) = true := by decide

/-- B5: BRANCH +2046. -/
theorem test_step_branch_far :
    (next (step (one 0xB7FE 0 0 0 0 (flagsOf true true true true))) fun t =>
      decide (t.pc = 0x0900)) = true := by decide

/-- B5: BEQ +6, Z = 1. -/
theorem test_step_beq_taken :
    (next (step (one 0xC006 0 0 0 0 (flagsOf true false false false))) fun t =>
      decide (t.pc = 0x0108)) = true := by decide

/-- B5: BEQ +3, Z = 0: the odd offset has no effect. -/
theorem test_step_beq_not_taken :
    (next (step (one 0xC003 0 0 0 0 (flagsOf false true true true))) fun t =>
      decide (t.pc = 0x0102)) = true := by decide

/-- B5: BNE -6, Z = 0. -/
theorem test_step_bne_taken :
    (next (step (one 0xDFFA 0 0 0 0 (flagsOf false true true true))) fun t =>
      decide (t.pc = 0x00FC)) = true := by decide

/-- B5: BNE -6, Z = 1. -/
theorem test_step_bne_not_taken :
    (next (step (one 0xDFFA 0 0 0 0 (flagsOf true false false false))) fun t =>
      decide (t.pc = 0x0102)) = true := by decide

/-- B5: BLT -6, N = 1. -/
theorem test_step_blt_taken :
    (next (step (one 0xEFFA 0 0 0 0 (flagsOf false true false false))) fun t =>
      decide (t.pc = 0x00FC)) = true := by decide

/-- B5: BLT -6, N = 0, Z = C = O = 1. -/
theorem test_step_blt_tests_n_only :
    (next (step (one 0xEFFA 0 0 0 0 (flagsOf true false true true))) fun t =>
      decide (t.pc = 0x0102)) = true := by decide

/-- B6: NOP 0x0ABC. -/
theorem test_step_nop :
    (next (step (one 0x0ABC 1 2 3 4 (flagsOf true true true true))) fun t =>
      decide (t = { one 0x0ABC 1 2 3 4 (flagsOf true true true true) with pc := 0x0102, ir := 0x0ABC })) = true := by decide

/-- B6: HALT 0xFFFF. -/
theorem test_step_halt :
    (next (step (one 0xFFFF 1 2 3 4 (flagsOf true true true true))) fun t =>
      decide (t = { one 0xFFFF 1 2 3 4 (flagsOf true true true true) with pc := 0x0102, ir := 0xFFFF, halted := true })) = true := by decide

/-- B4: LOAD R0, [R1] at an odd address. -/
theorem test_step_load_odd :
    (next (step (start 0x0100 #v[0, 0x1001, 0, 0, 0, 0, 0, 0] (flagsOf true false true false)
        (imageOfWords 0x100 [0x8040] ++ [(0x1001, 0xCD), (0x1002, 0xAB)]))) fun t =>
      decide (readReg t 0 = 0xABCD ∧ t.flags = flagsOf true false true false)) = true := by decide

/-- B4: LOAD R7, [R6 - 32], the address wrapping to 0xFFF0. -/
theorem test_step_load_wraps :
    (next (step (start 0x0100 #v[0, 0, 0, 0, 0, 0, 0x0010, 0] (flagsOf false false false false)
        (imageOfWords 0x100 [0x8FA0] ++ [(0xFFF0, 0x11), (0xFFF1, 0x22)]))) fun t =>
      decide (readReg t 7 = 0x2211 ∧ readReg t 6 = 0x0010)) = true := by decide

/-! ## The ends of the address space, the devices, the faults -/

/-- B5: BRANCH +4 at 0xFFFE wraps to 0x0004. -/
theorem test_step_pc_wraps :
    (next (step (start 0xFFFE #v[0, 0, 0, 0, 0, 0, 0, 0] (flagsOf false false false false)
        (imageOfWords 0xFFFE [0xB004]))) fun t => decide (t.pc = 0x0004)) = true := by decide

/-- B5 and B7: BRANCH +3 completes, and the next step faults with PC and IR as they were. -/
theorem test_step_odd_target :
    (next (step (one 0xB003 0 0 0 0 (flagsOf false false false false))) fun t =>
      decide (t.pc = 0x0105 ∧ (standsAfter t (step t)).ir = 0xB003) &&
      faults (step t) (.misalignedFetch 0x0105)) = true := by decide

/-- B4, devices: the five accesses the table defines, with the event each one records. -/
theorem test_step_devices :
    (next (step (one 0x9040 0x0148 0xF000 0 0 (flagsOf false false false false))) fun t =>
      decide (t.events = [.write 0xF000 0x0148] ∧ t.mem = imageOfWords 0x100 [0x9040] ∧
        consoleOutput t.events = [0x48])) = true ∧
    (next (step (one 0x8441 0 0xF000 0 0 (flagsOf false false false false))) fun t =>
      decide (t.events = [.read 0xF001 0x0041] ∧ readReg t 2 = 0x0041 ∧ t.consoleReads = 1)) = true ∧
    (next (step (one 0x9042 1 0xF000 0 0 (flagsOf false false false false))) fun t =>
      decide (t.events = [.write 0xF002 1] ∧ timerSetting t.events = some true)) = true ∧
    (next (step (one 0x8443 0 0xF000 0 0 (flagsOf false false false false))) fun t =>
      decide (t.events = [.read 0xF003 0x1234] ∧ readReg t 2 = 0x1234 ∧ t.timerReads = 1)) = true ∧
    (next (step (one 0x9043 0 0xF000 0 0 (flagsOf false false false false))) fun t =>
      decide (t.events = [.write 0xF003 0])) = true := by decide

/-- B7: the data faults, each with what it records. -/
theorem test_step_data_faults :
    faults (step (one 0x8040 0 0xFFFF 0 0 (flagsOf false false false false)))
      (.addressWrap 0xFFFF) = true ∧
    faults (step (one 0x927F 0 0xF000 0 0 (flagsOf false false false false)))
      (.ioStraddle 0xEFFF) = true ∧
    faults (step (one 0x8040 0 0xF000 0 0 (flagsOf false false false false)))
      (.ioUndefined 0xF000 none) = true ∧
    faults (step (one 0x9042 2 0xF000 0 0 (flagsOf false false false false)))
      (.ioUndefined 0xF002 (some 2)) = true ∧
    faults (step (one 0x9041 7 0xF000 0 0 (flagsOf false false false false)))
      (.ioUndefined 0xF001 (some 7)) = true ∧
    faults (step (one 0x8044 0 0xF000 0 0 (flagsOf false false false false)))
      (.ioUndefined 0xF004 none) = true ∧
    faults (step (one 0x805F 0 0xF0E0 0 0 (flagsOf false false false false)))
      (.ioUndefined 0xF0FF none) = true := by decide

/-- B7: the fetch faults, the alignment test first. -/
theorem test_step_fetch_faults :
    faults (step (start 0x0001 #v[0, 0, 0, 0, 0, 0, 0, 0] (flagsOf false false false false) []))
      (.misalignedFetch 0x0001) = true ∧
    faults (step (start 0xF000 #v[0, 0, 0, 0, 0, 0, 0, 0] (flagsOf false false false false) []))
      (.fetchFromIo 0xF000) = true ∧
    faults (step (start 0xF001 #v[0, 0, 0, 0, 0, 0, 0, 0] (flagsOf false false false false) []))
      (.misalignedFetch 0xF001) = true := by decide

/-- R112, R281: a halted machine takes no step. -/
theorem test_step_halted : stuck (step { State.reset with halted := true }) = true := by decide

/-- The word the host places is the one the core's step runs first after reset (A2). -/
theorem test_core_runs_first_word :
    (next (step (State.withFetchWord State.reset 16 0xA02A)) fun t =>
      decide (readReg t 0 = 0x002A ∧ t.pc = 0x0002 ∧ t.ir = 0xA02A)) = true := by decide

/-- FLAGS as one byte: Z 1, N 2, C 4, O 8, the reserved bits above (R130). -/
theorem test_flags_byte :
    (flagsOf true false true false).toByte = 0xA5 ∧ Flags.ofByte 0xA2 = flagsOf false true false false := by
  decide

/-! ## The assembler -/

set_option maxRecDepth 20000 in
/-- A6: the label example. -/
theorem test_assemble_labels :
    Asm.assemble 0 ["start:          ; Label definition".toList, "    LOADI R0, #1".toList,
      "loop:           ; Another label".toList, "    ADDI R0, R0, #1".toList,
      "    BRANCH loop".toList] = .ok [0xA001, 0x2001, 0xBFFC] := by decide

set_option maxRecDepth 20000 in
/-- A5, B1: operand forms. -/
theorem test_assemble_operands :
    Asm.assemble 0 ["LOAD R0, [R1]".toList, "LOAD R7, [R6 - 32]".toList,
      "STORE R0, [R2 + 8]".toList, "LOADI R0, #0x0A".toList, "BRANCH -4".toList, "HALT".toList] =
      .ok [0x8040, 0x8FA0, 0x9088, 0xA00A, 0xBFFC, 0xF000] := by decide

set_option maxRecDepth 20000 in
/-- The model's own choices of log entry 16: two labels at one address, labels told apart by case, a
label spelt like a mnemonic, white space between tokens. R198 gives the offset -2. -/
theorem test_assemble_label_choices :
    Asm.assemble 0 ["loop:".toList, "Again:".toList, "BRANCH Again".toList] = .ok [0xBFFE] ∧
    Asm.assemble 0 ["loop:".toList, "BRANCH Loop".toList] = .error .unknownLabel ∧
    Asm.assemble 0 ["B :".toList, "BRANCH B".toList, "LOADI R0, # 10".toList] =
      .ok [0xBFFE, 0xA00A] := by decide

set_option maxRecDepth 20000 in
/-- R199, R201 and conflicts C3, C4: what cannot be encoded is rejected, never truncated. -/
theorem test_assemble_rejects :
    Asm.assemble 0 ["LOADI R0, #0xF000".toList] = .error .immediateOutOfRange ∧
    Asm.assemble 0 ["ADDI R0, R1, #10".toList] = .error .sourceNotDestination ∧
    Asm.assemble 0 ["BRANCH 3".toList] = .error .oddOffset ∧
    Asm.assemble 0 ["MOV R0, R1".toList] = .error .unknownMnemonic := by decide

/-! ## The hypotheses of the statements can be met

A theorem `witness_<Name>` shows that the hypotheses of `Obligations.<Name>` can be met, each clause's
at the ends of its range. A statement that is not named here has no hypothesis but those of
`witness_DecodingAlgorithm` (the opcode of a word), or none. -/

/-- No flag set but the reserved bits. -/
def f0 : Flags := flagsOf false false false false

/-- R0 = `v`, R1 = `a`, everything else as it is in `one`; the word at PC is `w`. -/
def acc (w v a : Word) : State := one w v a 0 0 f0

/-- `exec` goes on. -/
theorem goes {o : Outcome} (h : (next o fun _ => true) = true) : ∃ t, o = .next t := exists_of_next h

/-- Also for AddRegisters, AddImmediate, SubtractRegisters, SubtractImmediate, BitwiseAnd, BitwiseOr,
BitwiseXor, LoadImmediate and the first clause of the other per-instruction statements. -/
theorem witness_DecodingAlgorithm :
    opcodeField 0x0ABC = 0x0#4 ∧ opcodeField 0x1298 = 0x1#4 ∧ opcodeField 0x21FF = 0x2#4 ∧
    opcodeField 0x3408 = 0x3#4 ∧ opcodeField 0x460A = 0x4#4 ∧ opcodeField 0x5050 = 0x5#4 ∧
    opcodeField 0x6050 = 0x6#4 ∧ opcodeField 0x7050 = 0x7#4 ∧ opcodeField 0x8FA0 = 0x8#4 ∧
    opcodeField 0x9F9F = 0x9#4 ∧ opcodeField 0xA02A = 0xA#4 ∧ opcodeField 0xBFFC = 0xB#4 ∧
    opcodeField 0xC006 = 0xC#4 ∧ opcodeField 0xDFFA = 0xD#4 ∧ opcodeField 0xEFFA = 0xE#4 ∧
    opcodeField 0xFFFF = 0xF#4 := by decide

theorem witness_ImmediatesAreSignExtended :
    decode 0x20FF = .addi 0 255 ∧ decode 0x4700 = .subi 3 (-256) ∧ decode 0xAFFF = .loadi 7 (-1) ∧
    decode 0x8FA0 = .load 7 6 (-32) ∧ decode 0x9F9F = .store 7 6 31 ∧
    decode 0xB800 = .branch (-2048) ∧ decode 0xC7FF = .beq 2047 ∧ decode 0xD000 = .bne 0 ∧
    decode 0xEFFF = .blt (-1) := by decide

theorem witness_UnusedBitsAreIgnored :
    opcodeField 0x0000 = 0x0#4 ∧ opcodeField 0xF000 = 0xF#4 ∧ opcodeField 0x1298 = 0x1#4 ∧
    opcodeField 0x3408 = 0x3#4 ∧ opcodeField 0x5050 = 0x5#4 ∧ opcodeField 0x6050 = 0x6#4 ∧
    opcodeField 0x7050 = 0x7#4 := by decide

theorem witness_DecodeOfEncodeIsTheInstruction :
    Instr.wellFormed (.loadi 7 (-256)) = true ∧ Instr.wellFormed (.load 7 0 31) = true ∧
    Instr.wellFormed (.branch 2047) = true ∧ Instr.wellFormed (.xor 7 0 7) = true := by decide

/-- A store at the last legal address, a load of the first word, a fetch in the last word. -/
theorem witness_LittleEndianEverywhere :
    (PlainData (effectiveAddress (acc 0 0xBEEF 0xFFFE) 1 0) ∧
      ∃ t, exec (.store 0 1 0) (acc 0 0xBEEF 0xFFFE) = .next t) ∧
    (PlainData (effectiveAddress (acc 0 0 0) 1 0) ∧ ∃ t, exec (.load 0 1 0) (acc 0 0 0) = .next t) ∧
    ∃ t, step (start 0xFFFE #v[0, 0, 0, 0, 0, 0, 0, 0] f0 (imageOfWords 0xFFFE [0xB004])) = .next t :=
  ⟨⟨by unfold PlainData; decide, goes (by decide)⟩,
    ⟨by unfold PlainData; decide, _, rfl⟩, goes (by decide)⟩

theorem witness_StepRunsTheDecodedInstruction :
    { acc 0 0 0 with halted := true }.halted = true ∧
    (Running (acc 0xA02A 0 0) ∧ Fetchable (acc 0xA02A 0 0).pc ∧
      decodeBytes [readByte (acc 0xA02A 0 0) (acc 0xA02A 0 0).pc.toNat,
        readByte (acc 0xA02A 0 0) ((acc 0xA02A 0 0).pc.toNat + 1)] = .ok (.loadi 0 42, [])) ∧
    step (acc 0x8040 0 0xFFFF) = .fault (.addressWrap 0xFFFF) :=
  ⟨rfl, ⟨⟨rfl, rfl⟩, by unfold Fetchable; decide, by decide⟩, eq_of_faults (by decide)⟩

/-- A launch at `pc` with nothing loaded. -/
def at_ (pc : Word) : State := start pc #v[0, 0, 0, 0, 0, 0, 0, 0] f0 []

theorem witness_FetchFaults :
    Running (at_ 0x0001) ∧ (at_ 0x0001).pc.toNat % 2 = 1 ∧ (at_ 0xFFFF).pc.toNat % 2 = 1 ∧
    (at_ 0xF001).pc.toNat % 2 = 1 ∧
    ((at_ 0xF000).pc.toNat % 2 = 0 ∧ InWindow (at_ 0xF000).pc) ∧
    ((at_ 0xF0FE).pc.toNat % 2 = 0 ∧ InWindow (at_ 0xF0FE).pc) ∧
    ((at_ 0xEFFE).pc.toNat % 2 = 0 ∧ ¬ InWindow (at_ 0xEFFE).pc) ∧
    ((at_ 0xF100).pc.toNat % 2 = 0 ∧ ¬ InWindow (at_ 0xF100).pc) :=
  ⟨⟨rfl, rfl⟩, by decide⟩

/-- One faulting step of each kind, from a running machine; also for FaultKindsAndConditions. -/
theorem witness_FaultingStepChangesNothing :
    (Running (at_ 0x0001) ∧ step (at_ 0x0001) = .fault (.misalignedFetch 0x0001)) ∧
    (Running (at_ 0xF000) ∧ step (at_ 0xF000) = .fault (.fetchFromIo 0xF000)) ∧
    (Running (acc 0x8040 0 0xFFFF) ∧ step (acc 0x8040 0 0xFFFF) = .fault (.addressWrap 0xFFFF)) ∧
    (Running (acc 0x9040 0 0xEFFF) ∧ step (acc 0x9040 0 0xEFFF) = .fault (.ioStraddle 0xEFFF)) ∧
    (Running (acc 0x8040 0 0xF002) ∧ step (acc 0x8040 0 0xF002) = .fault (.ioUndefined 0xF002 none)) ∧
    (Running (acc 0x9040 2 0xF002) ∧
      step (acc 0x9040 2 0xF002) = .fault (.ioUndefined 0xF002 (some 2))) :=
  ⟨⟨⟨rfl, rfl⟩, eq_of_faults (by decide)⟩, ⟨⟨rfl, rfl⟩, eq_of_faults (by decide)⟩,
    ⟨⟨rfl, rfl⟩, eq_of_faults (by decide)⟩, ⟨⟨rfl, rfl⟩, eq_of_faults (by decide)⟩,
    ⟨⟨rfl, rfl⟩, eq_of_faults (by decide)⟩, ⟨⟨rfl, rfl⟩, eq_of_faults (by decide)⟩⟩

theorem witness_RunningMachineGoesOnOrFaults :
    Running (acc 0x0ABC 0 0) ∧ ∃ t, step (acc 0x0ABC 0 0) = .next t :=
  ⟨⟨rfl, rfl⟩, goes (by decide)⟩

/-- Sums and differences at the ends of both readings. -/
theorem witness_ArithmeticIsModulo :
    (∃ t, exec (.add 0 0 1) (acc 0 0xFFFF 1) = .next t) ∧
    (∃ t, exec (.addi 0 (-256)) (acc 0 0x8000 0) = .next t) ∧
    (∃ t, exec (.sub 0 0 1) (acc 0 0x8000 1) = .next t) ∧
    ∃ t, exec (.subi 0 255) (acc 0 0 0) = .next t :=
  ⟨⟨_, rfl⟩, ⟨_, rfl⟩, ⟨_, rfl⟩, ⟨_, rfl⟩⟩

theorem witness_SubiIsAddiOfTheNegation :
    (-255 ≤ (-255 : Int) ∧ (-255 : Int) ≤ 255) ∧ (-255 ≤ (255 : Int) ∧ (255 : Int) ≤ 255) := by decide

theorem witness_EffectiveAddress :
    ((∃ t, exec (.load 0 1 (-32)) (acc 0 0 0x0010) = .next t) ∧ (1 : Reg) ≠ 0) ∧
    ∃ t, exec (.store 1 1 31) (acc 0 0 0x1000) = .next t :=
  ⟨⟨goes (by decide), by decide⟩, goes (by decide)⟩

theorem witness_LoadFromMemory :
    PlainData (effectiveAddress (acc 0 0 0) 1 0) ∧ PlainData (effectiveAddress (acc 0 0 0xEFFE) 1 0) ∧
    PlainData (effectiveAddress (acc 0 0 0xF100) 1 0) ∧ PlainData (effectiveAddress (acc 0 0 0xFFFE) 1 0) ∧
    effectiveAddress (acc 0 0 0xF000) 1 1 = 0xF001#16 ∧ effectiveAddress (acc 0 0 0xF000) 1 3 = 0xF003#16 ∧
    effectiveAddress (acc 0 0 0) 1 (-1) = 0xFFFF#16 ∧ effectiveAddress (acc 0 0 0xF000) 1 (-1) = 0xEFFF#16 ∧
    (InWindow (effectiveAddress (acc 0 0 0xF000) 1 0) ∧
      effectiveAddress (acc 0 0 0xF000) 1 0 ≠ 0xF001#16 ∧ effectiveAddress (acc 0 0 0xF000) 1 0 ≠ 0xF003#16) ∧
    (InWindow (effectiveAddress (acc 0 0 0xF0FF) 1 0) ∧
      effectiveAddress (acc 0 0 0xF0FF) 1 0 ≠ 0xF001#16 ∧
      effectiveAddress (acc 0 0 0xF0FF) 1 0 ≠ 0xF003#16) := by unfold PlainData; decide

theorem witness_StoreToMemory :
    PlainData (effectiveAddress (acc 0 7 0) 1 0) ∧ PlainData (effectiveAddress (acc 0 7 0xEFFE) 1 0) ∧
    PlainData (effectiveAddress (acc 0 7 0xF100) 1 0) ∧ PlainData (effectiveAddress (acc 0 7 0xFFFE) 1 0) ∧
    effectiveAddress (acc 0 7 0xF000) 1 0 = 0xF000#16 ∧
    (effectiveAddress (acc 0 0 0xF000) 1 2 = 0xF002#16 ∧ readReg (acc 0 0 0xF000) 0 = 0#16) ∧
    (effectiveAddress (acc 0 1 0xF000) 1 2 = 0xF002#16 ∧ readReg (acc 0 1 0xF000) 0 = 1#16) ∧
    effectiveAddress (acc 0 7 0xF000) 1 3 = 0xF003#16 ∧
    effectiveAddress (acc 0 7 0) 1 (-1) = 0xFFFF#16 ∧ effectiveAddress (acc 0 7 0xF000) 1 (-1) = 0xEFFF#16 ∧
    (InWindow (effectiveAddress (acc 0 2 0xF002) 1 0) ∧
      effectiveAddress (acc 0 2 0xF002) 1 0 ≠ 0xF000#16 ∧ effectiveAddress (acc 0 2 0xF002) 1 0 ≠ 0xF003#16 ∧
      ¬ (effectiveAddress (acc 0 2 0xF002) 1 0 = 0xF002#16 ∧
        (readReg (acc 0 2 0xF002) 0 = 0#16 ∨ readReg (acc 0 2 0xF002) 0 = 1#16))) := by
  unfold PlainData; decide

theorem witness_UndefinedDeviceAccesses :
    effectiveAddress (acc 0 0 0xF000) 1 0 = 0xF000#16 ∧ effectiveAddress (acc 0 0 0xF000) 1 1 = 0xF001#16 ∧
    (effectiveAddress (acc 0 2 0xF000) 1 2 = 0xF002#16 ∧ 2 ≤ (readReg (acc 0 2 0xF000) 0).toNat) ∧
    (effectiveAddress (acc 0 0 0xF000) 1 4 = 0xF004#16 ∧ effectiveAddress (acc 0 0 0xF100) 1 (-1) = 0xF0FF#16 ∧
      0xF004 ≤ (0xF004#16).toNat ∧ (0xF0FF#16).toNat ≤ 0xF0FF) := by decide

theorem witness_ConsoleAndTimerOutput :
    ((∃ t, exec (.store 0 1 0) (acc 0 0x0148 0xF000) = .next t) ∧
      effectiveAddress (acc 0 0x0148 0xF000) 1 0 = 0xF000#16) ∧
    ((∃ t, exec (.store 0 1 0) (acc 0 1 0xF002) = .next t) ∧
      effectiveAddress (acc 0 1 0xF002) 1 0 = 0xF002#16) ∧
    ((∃ t, exec (.store 0 1 0) (acc 0 7 0xF003) = .next t) ∧
      effectiveAddress (acc 0 7 0xF003) 1 0 ≠ 0xF000#16 ∧
      effectiveAddress (acc 0 7 0xF003) 1 0 ≠ 0xF002#16) :=
  ⟨⟨goes (by decide), by decide⟩, ⟨goes (by decide), by decide⟩, goes (by decide), by decide⟩

/-- In the last word of the space; the state of the LOAD differs from the one after the STORE in every
other byte the image lists. -/
theorem witness_LoadReturnsTheStoredValue :
    let s := acc 0 0xBEEF 0xFFFE
    ∃ t u, exec (.store 0 1 0) s = .next t ∧ PlainData (effectiveAddress s 1 0) ∧
      readByte u (effectiveAddress s 1 0).toNat = readByte t (effectiveAddress s 1 0).toNat ∧
      readByte u ((effectiveAddress s 1 0).toNat + 1) = readByte t ((effectiveAddress s 1 0).toNat + 1) ∧
      effectiveAddress u 1 0 = effectiveAddress s 1 0 ∧ u.mem ≠ t.mem :=
  ⟨_, { acc 0 0xBEEF 0xFFFE with mem := [(0xFFFE, 0xEF), (0xFFFF, 0xBE)] }, rfl,
    by unfold PlainData; decide, by decide, by decide, rfl, by decide⟩

/-- The example of R164: 0x1234 at 0x1000, then 0xABCD at 0x1001; here R2 = 0xABCD. -/
theorem witness_OverlappingStores :
    ∃ t u, exec (.store 0 1 0) (one 0 0x1234 0x1000 0xABCD 0 f0) = .next t ∧
      PlainData (effectiveAddress (one 0 0x1234 0x1000 0xABCD 0 f0) 1 0) ∧
      exec (.store 2 1 1) t = .next u ∧ PlainData (effectiveAddress t 1 1) ∧
      effectiveAddress t 1 1 = effectiveAddress (one 0 0x1234 0x1000 0xABCD 0 f0) 1 0 + 1#16 ∧
      effectiveAddress u 1 0 = effectiveAddress (one 0 0x1234 0x1000 0xABCD 0 f0) 1 0 ∧
      effectiveAddress u 1 1 = effectiveAddress (one 0 0x1234 0x1000 0xABCD 0 f0) 1 0 + 1#16 :=
  ⟨_, _, rfl, by unfold PlainData; decide, rfl, by unfold PlainData; decide, by decide, by decide,
    by decide⟩

/-- The STORE at PC (as in program P6), one above it, one below it, elsewhere, and to a device; each
time `u` is the state right after it. -/
theorem witness_FetchSeesTheStore :
    (∃ t, exec (.store 0 1 0) (acc 0 0xF000 0x0100) = .next t ∧ Running t ∧ Fetchable t.pc ∧
      t.pc = effectiveAddress (acc 0 0xF000 0x0100) 1 0) ∧
    (∃ t, exec (.store 0 1 1) (acc 0 0xF000 0x0100) = .next t ∧ Running t ∧ Fetchable t.pc ∧
      effectiveAddress (acc 0 0xF000 0x0100) 1 1 = t.pc + 1#16) ∧
    (∃ t, exec (.store 0 1 (-1)) (acc 0 0xF000 0x0100) = .next t ∧ Running t ∧ Fetchable t.pc ∧
      t.pc = effectiveAddress (acc 0 0xF000 0x0100) 1 (-1) + 1#16) ∧
    (∃ t, exec (.store 0 1 2) (acc 0 0xF000 0x0100) = .next t ∧ Running t ∧ Fetchable t.pc ∧
      t.pc ≠ effectiveAddress (acc 0 0xF000 0x0100) 1 2 ∧
      effectiveAddress (acc 0 0xF000 0x0100) 1 2 ≠ t.pc + 1#16 ∧
      t.pc ≠ effectiveAddress (acc 0 0xF000 0x0100) 1 2 + 1#16) ∧
    (∃ t, exec (.store 0 1 0) (acc 0 0x48 0xF000) = .next t ∧ Running t ∧ Fetchable t.pc) :=
  ⟨⟨_, rfl, ⟨rfl, rfl⟩, by unfold Fetchable; decide, by decide⟩,
    ⟨_, rfl, ⟨rfl, rfl⟩, by unfold Fetchable; decide, by decide⟩,
    ⟨_, rfl, ⟨rfl, rfl⟩, by unfold Fetchable; decide, by decide⟩,
    ⟨_, rfl, ⟨rfl, rfl⟩, by unfold Fetchable; decide, by decide, by decide, by decide⟩,
    ⟨_, rfl, ⟨rfl, rfl⟩, by unfold Fetchable; decide⟩⟩

/-- Also for BranchIfNotEqual and BranchIfLessThan. -/
theorem witness_BranchIfEqual :
    (one 0 0 0 0 0 (flagsOf true false false false)).flags.z = true ∧
    (one 0 0 0 0 0 (flagsOf false true false false)).flags.z = false ∧
    (one 0 0 0 0 0 (flagsOf false true false false)).flags.n = true ∧
    (one 0 0 0 0 0 (flagsOf true false false false)).flags.n = false := by decide

theorem witness_ProgramCounterAdvance :
    (∃ t, step (acc 0xBFFC 0 0) = .next t) ∧ ∃ t, step (acc 0x1298 0 0) = .next t :=
  ⟨goes (by decide), goes (by decide)⟩

theorem witness_SubThenBranchTestsEquality :
    ((∃ t, exec (.sub 2 0 1) (acc 0 5 5) = .next t) ∧ readReg (acc 0 5 5) 0 = readReg (acc 0 5 5) 1) ∧
    ((∃ t, exec (.sub 2 0 1) (acc 0 5 6) = .next t) ∧
      readReg (acc 0 5 6) 0 ≠ readReg (acc 0 5 6) 1) :=
  ⟨⟨⟨_, rfl⟩, by decide⟩, ⟨_, rfl⟩, by decide⟩

/-- The true difference at both ends of the range, and one beyond each end. -/
theorem witness_SubThenBltComparesSigned :
    (∃ t, exec (.sub 2 0 1) (acc 0 0x8000 1) = .next t) ∧
    (readReg (acc 0 0x8000 0) 0).toInt - (readReg (acc 0 0x8000 0) 1).toInt = -32768 ∧
    (readReg (acc 0 0x7FFF 0) 0).toInt - (readReg (acc 0 0x7FFF 0) 1).toInt = 32767 ∧
    (readReg (acc 0 0x8000 1) 0).toInt - (readReg (acc 0 0x8000 1) 1).toInt < -32768 ∧
    32767 < (readReg (acc 0 0x7FFF 0xFFFF) 0).toInt - (readReg (acc 0 0x7FFF 0xFFFF) 1).toInt :=
  ⟨⟨_, rfl⟩, by decide⟩

theorem witness_NoOperation :
    Running (acc 0x0ABC 0 0) ∧ Fetchable (acc 0x0ABC 0 0).pc ∧
    decode (wordOfBytes (readByte (acc 0x0ABC 0 0) (acc 0x0ABC 0 0).pc.toNat)
      (readByte (acc 0x0ABC 0 0) ((acc 0x0ABC 0 0).pc.toNat + 1))) = .nop :=
  ⟨⟨rfl, rfl⟩, by unfold Fetchable; decide, by decide⟩

theorem witness_HaltStopsExecution :
    Running (acc 0xFFFF 0 0) ∧ Fetchable (acc 0xFFFF 0 0).pc ∧
    decode (wordOfBytes (readByte (acc 0xFFFF 0 0) (acc 0xFFFF 0 0).pc.toNat)
      (readByte (acc 0xFFFF 0 0) ((acc 0xFFFF 0 0).pc.toNat + 1))) = .halt :=
  ⟨⟨rfl, rfl⟩, by unfold Fetchable; decide, by decide⟩

/-- Also for RegistersWrittenAsTheTableSays and OnlyLoadAndStoreReachData. -/
theorem witness_FlagsWrittenAsTheTableSays :
    ((∃ t, exec (.add 2 0 1) (acc 0 0xFFFF 1) = .next t) ∧ writesZN (.add 2 0 1) = true ∧
      destination (.add 2 0 1) ≠ some 0 ∧ accessesData (.add 2 0 1) = false) ∧
    ((∃ t, exec (.subi 0 255) (acc 0 0 0) = .next t) ∧ writesC (.subi 0 255) = false) ∧
    ((∃ t, exec (.load 0 1 0) (acc 0 0 0xF001) = .next t) ∧ writesZN (.load 0 1 0) = false ∧
      destination (.load 0 1 0) ≠ some 1) :=
  ⟨⟨⟨_, rfl⟩, by decide, by decide, by decide⟩, ⟨⟨_, rfl⟩, by decide⟩, goes (by decide), by decide,
    by decide⟩

theorem witness_OnlyHaltHalts :
    (∃ t, step (acc 0xF000 0 0) = .next t) ∧ ∃ t, step (acc 0x0000 0 0) = .next t :=
  ⟨goes (by decide), goes (by decide)⟩

theorem witness_EventRecordGrowsByTheAccessMade :
    ((∃ t, step (acc 0x8441 0 0xF000) = .next t) ∧ decode 0x8441 = .load 2 1 1 ∧
      InWindow (effectiveAddress (acc 0x8441 0 0xF000) 1 1)) ∧
    (∃ t, step (acc 0x9040 0x48 0xF000) = .next t) ∧ ∃ t, step (acc 0x9040 0x48 0x2000) = .next t :=
  ⟨⟨goes (by decide), by decide, by decide⟩, goes (by decide), goes (by decide)⟩

/-- Two states that differ in everything a program cannot see, and go on. -/
theorem witness_HiddenStateNeverMatters :
    SameToProgram (acc 0x1298 1 2)
      { acc 0x1298 1 2 with sp := 1, ir := 2, flags := { f0 with c := true, o := true, reserved := 0#4 } } ∧
    ∃ t, step (acc 0x1298 1 2) = .next t :=
  ⟨⟨rfl, rfl, rfl, rfl, rfl, rfl, rfl, rfl, rfl, rfl, rfl, rfl⟩, goes (by decide)⟩

/-- The same word at 0x0100 and at 0x0200. -/
theorem witness_ProgramsArePositionIndependent :
    let s := start 0x0100 #v[0, 0, 0, 0, 0, 0, 0, 0] f0
      (imageOfWords 0x100 [0xBFFC] ++ imageOfWords 0x200 [0xBFFC])
    Fetchable s.pc ∧ Fetchable (s.pc + 0x0100#16) ∧
    readByte s (s.pc + 0x0100#16).toNat = readByte s s.pc.toNat ∧
    readByte s ((s.pc + 0x0100#16).toNat + 1) = readByte s (s.pc.toNat + 1) ∧
    ∃ t, step s = .next t :=
  ⟨by unfold Fetchable; decide, by unfold Fetchable; decide, by decide, by decide, goes (by decide)⟩

/-- A state with a device read behind it and a step before it; also for StandingKeepsTheInvariant. -/
theorem witness_StepKeepsTheInvariant :
    Invariant { acc 0x8441 0 0xF000 with events := [.read 0xF001 0x0041], consoleReads := 1 } ∧
    ∃ t, step { acc 0x8441 0 0xF000 with events := [.read 0xF001 0x0041], consoleReads := 1 } =
      .next t :=
  ⟨⟨by decide, .inl rfl, by
      intro e he
      cases List.mem_singleton.1 he
      exact .inl rfl, rfl, rfl⟩, _, rfl⟩

theorem witness_EqualMemoriesAreEqualLists :
    Memory.wf [(0, 0x2A), (1, 0xA0), (0xEFFF, 1), (0xF100, 2), (0xFFFF, 3)] = true ∧
    Memory.wf [(0xF000, 0)] = false ∧ Memory.wf [(0x10000, 0)] = false ∧
    Memory.wf [(1, 0), (0, 0)] = false ∧ Memory.wf [(1, 0), (1, 0)] = false := by decide

/-- An image with a byte at each end of the RAM and stack regions. -/
theorem witness_LaunchStateIsAsGiven :
    let image : List Host.Cell := [(0, 1), (0xEFFF, 2), (0xF100, 3), (0xFFFF, 4)]
    (image.map Prod.fst).Nodup ∧ (∀ c ∈ image, IsStorage c.1) ∧ ¬ IsStorage 0xF000 ∧
    ¬ IsStorage 0xF0FF ∧ ¬ IsStorage 0x10000 ∧ ∀ c ∈ image, c.1 ≠ 2 := by decide

theorem witness_HostWordRunsNext :
    Running State.reset ∧ Fetchable State.reset.pc ∧ Running (at_ 0xEFFE) ∧ Fetchable (at_ 0xEFFE).pc ∧
    Fetchable (at_ 0xFFFE).pc :=
  ⟨⟨rfl, rfl⟩, by unfold Fetchable; decide, ⟨rfl, rfl⟩, by unfold Fetchable; decide,
    by unfold Fetchable; decide⟩

theorem witness_AssembledInstructionsDecodeBack :
    Asm.translate [] 0 .LOADI [.reg 7, .imm (-256)] = .ok (.loadi 7 (-256)) ∧
    Asm.translate [] 0 .LOAD [.reg 7, .mem 6 (-32)] = .ok (.load 7 6 (-32)) ∧
    Asm.translate [] 0 .BLT [.number 2046] = .ok (.blt 2046) := by decide

/-- A label 4 bytes back, one at each end of the reach, one odd and one too far; numbers at each end of
the range, odd, and one beyond each end; PC at the address after the branch, with each flag that makes
a conditional branch taken. -/
theorem witness_BranchToALabelReachesIt :
    let d (addr target : Nat) : Int := (target : Int) - ((addr : Int) + 2)
    let fits (n : Int) : Prop := n % 2 = 0 ∧ -2048 ≤ n ∧ n ≤ 2047
    List.lookup ['l'] [(['l'], 2)] = some 2 ∧
    (d 4 2 = -4 ∧ fits (d 4 2)) ∧ (d 0x0800 2 = -2048 ∧ fits (d 0x0800 2)) ∧
    (d 0 2048 = 2046 ∧ fits (d 0 2048)) ∧ ¬ fits (d 0 5) ∧ ¬ fits (d 0 2050) ∧
    fits (-2048) ∧ fits 2046 ∧ ¬ fits 3 ∧ ¬ fits (-2050) ∧ ¬ fits 2048 ∧
    (one 0xBFFC 0 0 0 0 f0).pc = BitVec.ofNat 16 (0xFE + 2) ∧
    (one 0xCFFC 0 0 0 0 (flagsOf true true false false)).flags.z = true ∧
    (one 0xDFFC 0 0 0 0 (flagsOf false true false false)).flags.z = false ∧
    (one 0xEFFC 0 0 0 0 (flagsOf false true false false)).flags.n = true := by decide

/-- Both ends of each range, one beyond each, and the literals 0xF000 and 0x1000 of conflict C4. -/
theorem witness_LiteralsAndSourceRegisters :
    let fits9 (n : Int) : Prop := -256 ≤ n ∧ n ≤ 255
    let fits6 (n : Int) : Prop := -32 ≤ n ∧ n ≤ 31
    fits9 (-256) ∧ fits9 255 ∧ ¬ fits9 (-257) ∧ ¬ fits9 256 ∧ ¬ fits9 0xF000 ∧ ¬ fits9 0x1000 ∧
    fits6 (-32) ∧ fits6 31 ∧ ¬ fits6 (-33) ∧ ¬ fits6 32 ∧ (1 : Reg) ≠ 0 := by decide

end Sys2Proof.Tests
end

/-! ## One step as a whole (00_scope.md R112) -/

namespace Sys2Proof.Machine

/-- R281: no step is taken from a halted state. -/
theorem step_of_halted {s : State} (h : s.halted = true) : step s = .refused .halted := by
  simp only [step, h, if_true]

/-- The bytes at PC, read as an instruction, are the one the decoder finds in the word at PC. -/
theorem decode_readWord_of_decodeBytes {s : State} {a : Word} {i : Instr}
    (h : decodeBytes [readByte s a.toNat, readByte s (a.toNat + 1)] = .ok (i, [])) :
    decode (readWord s a) = i := by
  rw [decodeBytes_pair] at h
  exact (Prod.mk.inj (Except.ok.inj h)).1

/-- R301: after a step that faults the machine stands in the marked state. -/
theorem standsAfter_of_step_fault {s : State} {f : Fault} (h : step s = .fault f) :
    standsAfter s (step s) = faultedState s f := by
  rw [h, standsAfter]

/-- Settles O8: the fetch phase answers at a fetchable PC, and the state marked by a fault keeps IR
and PC. -/
theorem stepRunsTheDecodedInstruction : Obligations.StepRunsTheDecodedInstruction := by
  refine ⟨fun _ => step_of_halted, fun s i hrun hpc hi => ?_, fun s f hf => ?_⟩
  · have hdecode : decode (readWord s s.pc) = i := decode_readWord_of_decodeBytes hi
    rw [step_of_fetch hrun hpc, hdecode, afterFetch, readWord]
  · rw [standsAfter_of_step_fault hf]
    exact ⟨faultedState_ir s f, faultedState_pc s f⟩

end Sys2Proof.Machine

/-! ## A program cannot see SP, IR, C, O or the reserved flag bits (10_state.md R128 to R134)

Each operation an instruction is made of reads the visible part of the state only, and takes two
states that agree there to two that agree there again. -/

namespace Sys2Proof.Machine

/-- Two answers of a data access fault alike, or give results that are related by `R`. -/
def SameAccess {α : Type} (R : α → α → Prop) (x y : Except Fault α) : Prop :=
  (∃ f, x = .error f ∧ y = .error f) ∨ ∃ a b, x = .ok a ∧ y = .ok b ∧ R a b

/-- Two reads gave the same value and left states that agree to a program. -/
def SameRead (p q : Word × State) : Prop := p.1 = q.1 ∧ SameToProgram p.2 q.2

theorem SameAccess.error {α : Type} {R : α → α → Prop} (f : Fault) :
    SameAccess R (.error f) (.error f) :=
  .inl ⟨f, rfl, rfl⟩

theorem SameAccess.ok {α : Type} {R : α → α → Prop} {a b : α} (h : R a b) :
    SameAccess R (.ok a) (.ok b) :=
  .inr ⟨a, b, rfl, rfl, h⟩

namespace SameToProgram

variable {s t : State}

/-! ### What reads alike -/

theorem readReg_congr (h : SameToProgram s t) (i : Reg) : readReg s i = readReg t i := by
  rw [readReg, readReg, h.regs]

theorem readWord_congr (h : SameToProgram s t) (a : Word) : readWord s a = readWord t a := by
  simp only [readWord, readByte, h.mem]

theorem fetchRead_congr (h : SameToProgram s t) (a : Word) : fetchRead s a = fetchRead t a := by
  simp only [fetchRead, h.readWord_congr]

theorem effectiveAddress_congr (h : SameToProgram s t) (rs : Reg) (off : Int) :
    effectiveAddress s rs off = effectiveAddress t rs off := by
  rw [effectiveAddress, effectiveAddress, h.readReg_congr]

theorem consoleElement_congr (h : SameToProgram s t) (k : Nat) :
    consoleElement s k = consoleElement t k := by
  rw [consoleElement, consoleElement, h.consoleIn]

theorem timerElement_congr (h : SameToProgram s t) (k : Nat) :
    timerElement s k = timerElement t k := by
  rw [timerElement, timerElement, h.timerIn]

/-! ### What agrees again after an update -/

theorem afterFetch_congr (h : SameToProgram s t) (w : Word) :
    SameToProgram (afterFetch s w) (afterFetch t w) :=
  { h with pc := congrArg (· + 2#16) h.pc }

theorem setPc_congr (h : SameToProgram s t) (p : Word) :
    SameToProgram { s with pc := p } { t with pc := p } :=
  { h with pc := rfl }

theorem halt_congr (h : SameToProgram s t) :
    SameToProgram { s with halted := true } { t with halted := true } :=
  { h with halted := rfl }

theorem writeReg_congr (h : SameToProgram s t) (rd : Reg) (v : Word) :
    SameToProgram (writeReg s rd v) (writeReg t rd v) :=
  { h with regs := congrArg (·.set rd.val v) h.regs }

/-- Flags that are written with a result need only agree in Z and N. -/
theorem writeResult_congr (h : SameToProgram s t) (rd : Reg) {r r' : Word} {f g : Flags}
    (hr : r = r') (hz : f.z = g.z) (hn : f.n = g.n) :
    SameToProgram (writeResult s rd r f) (writeResult t rd r' g) :=
  hr ▸ { h.writeReg_congr rd r with z := hz, n := hn }

/-- Flags assigned from one result agree in Z and N, whatever C, O and the reserved bits were. -/
theorem writeZN_congr (h : SameToProgram s t) (rd : Reg) {r r' : Word} (hr : r = r') :
    SameToProgram (writeResult s rd r (assignZN s.flags r))
      (writeResult t rd r' (assignZN t.flags r')) :=
  h.writeResult_congr rd hr (congrArg zeroOf hr) (congrArg negativeOf hr)

theorem recordEvent_congr (h : SameToProgram s t) (e : IoEvent) :
    SameToProgram (recordEvent s e) (recordEvent t e) :=
  { h with events := congrArg (· ++ [e]) h.events }

theorem writeWord_congr (h : SameToProgram s t) (a v : Word) :
    SameToProgram (writeWord s a v) (writeWord t a v) :=
  { h with mem := congrArg (fun m : Memory =>
      (m.insert a.toNat (lowByte v)).insert (a.toNat + 1) (highByte v)) h.mem }

/-! ### Data accesses -/

theorem ioRead_congr (h : SameToProgram s t) (a : Word) :
    SameAccess SameRead (ioRead s a) (ioRead t a) := by
  unfold ioRead
  split
  case h_1 =>
    rw [h.consoleElement_congr, h.consoleReads]
    exact .ok ⟨rfl, { h.recordEvent_congr _ with consoleReads := rfl }⟩
  case h_2 =>
    rw [h.timerElement_congr, h.timerReads]
    exact .ok ⟨rfl, { h.recordEvent_congr _ with timerReads := rfl }⟩
  all_goals exact .error _

theorem ioWrite_congr (h : SameToProgram s t) (a v : Word) :
    SameAccess SameToProgram (ioWrite s a v) (ioWrite t a v) := by
  unfold ioWrite
  split
  case h_1 => exact .ok (h.recordEvent_congr _)
  case h_2 =>
    split
    · exact .ok (h.recordEvent_congr _)
    · exact .error _
  case h_3 => exact .ok (h.recordEvent_congr _)
  all_goals exact .error _

theorem memRead_congr (h : SameToProgram s t) (a : Word) :
    SameAccess SameRead (memRead s a) (memRead t a) := by
  unfold memRead
  split_ifs
  · exact .error _
  · exact .error _
  · exact h.ioRead_congr a
  · exact .ok ⟨h.readWord_congr a, h⟩

theorem memWrite_congr (h : SameToProgram s t) (a v : Word) :
    SameAccess SameToProgram (memWrite s a v) (memWrite t a v) := by
  unfold memWrite
  split_ifs
  · exact .error _
  · exact .error _
  · exact h.ioWrite_congr a v
  · exact .ok (h.writeWord_congr a v)

/-! ### The instructions -/

theorem branchIf_congr (h : SameToProgram s t) {b c : Bool} (hbc : b = c) (off : Int) :
    SameOutcome (branchIf b off s) (branchIf c off t) := by
  rw [branchIf_eq, branchIf_eq, hbc, h.pc]
  split
  · exact h.setPc_congr _
  · exact h

theorem execLoad_congr (h : SameToProgram s t) (rd rs : Reg) (off : Int) :
    SameOutcome (execLoad rd rs off s) (execLoad rd rs off t) := by
  unfold execLoad
  rw [← h.effectiveAddress_congr]
  obtain ⟨f, hs, ht⟩ | ⟨⟨v, u⟩, ⟨w, u'⟩, hs, ht, hv, hu⟩ :=
    h.memRead_congr (effectiveAddress s rs off)
  · rw [hs, ht]
    exact rfl
  · obtain rfl : v = w := hv
    rw [hs, ht]
    exact hu.writeReg_congr rd v

theorem execStore_congr (h : SameToProgram s t) (rd rs : Reg) (off : Int) :
    SameOutcome (execStore rd rs off s) (execStore rd rs off t) := by
  unfold execStore
  rw [← h.effectiveAddress_congr, ← h.readReg_congr]
  obtain ⟨f, hs, ht⟩ | ⟨u, u', hs, ht, hu⟩ :=
    h.memWrite_congr (effectiveAddress s rs off) (readReg s rd)
  · rw [hs, ht]
    exact rfl
  · rw [hs, ht]
    exact hu

/-- The execute phase takes two states that agree to a program to answers that agree. -/
theorem exec_congr (h : SameToProgram s t) (i : Instr) : SameOutcome (exec i s) (exec i t) := by
  cases i with
  | nop => exact h
  | add rd rs1 rs2 =>
    have hr : sumOf (readReg s rs1) (readReg s rs2) = sumOf (readReg t rs1) (readReg t rs2) :=
      congrArg₂ sumOf (h.readReg_congr rs1) (h.readReg_congr rs2)
    exact h.writeResult_congr rd hr (congrArg zeroOf hr) (congrArg negativeOf hr)
  | addi rd imm => exact h.writeZN_congr rd (congrArg (sumOf · _) (h.readReg_congr rd))
  | sub rd rs1 rs2 =>
    exact h.writeZN_congr rd (congrArg₂ differenceOf (h.readReg_congr rs1) (h.readReg_congr rs2))
  | subi rd imm => exact h.writeZN_congr rd (congrArg (differenceOf · _) (h.readReg_congr rd))
  | and rd rs1 rs2 =>
    exact h.writeZN_congr rd (congrArg₂ (· &&& ·) (h.readReg_congr rs1) (h.readReg_congr rs2))
  | or rd rs1 rs2 =>
    exact h.writeZN_congr rd (congrArg₂ (· ||| ·) (h.readReg_congr rs1) (h.readReg_congr rs2))
  | xor rd rs1 rs2 =>
    exact h.writeZN_congr rd (congrArg₂ (· ^^^ ·) (h.readReg_congr rs1) (h.readReg_congr rs2))
  | load rd rs off => exact h.execLoad_congr rd rs off
  | store rd rs off => exact h.execStore_congr rd rs off
  | loadi rd imm => exact h.writeReg_congr rd _
  | branch off => exact h.branchIf_congr rfl off
  | beq off => exact h.branchIf_congr h.z off
  | bne off => exact h.branchIf_congr (congrArg not h.z) off
  | blt off => exact h.branchIf_congr h.n off
  | halt => exact h.halt_congr

/-- So does a whole step: whether it is taken and what it fetches is the same for both. -/
theorem step_congr (h : SameToProgram s t) : SameOutcome (step s) (step t) := by
  unfold step
  rw [← h.halted, ← h.faultMark, ← h.pc, ← h.fetchRead_congr]
  split
  · exact rfl
  split
  · exact rfl
  split
  · exact rfl
  · exact (h.afterFetch_congr _).exec_congr _

end SameToProgram

/-- Settles O46: the step lemma of the relation `SameToProgram`. -/
theorem hiddenStateNeverMatters : Obligations.HiddenStateNeverMatters :=
  fun _ _ h => h.step_congr

end Sys2Proof.Machine

/-! ## What the execute phase does when it goes on (10_state.md R122, R132) -/

namespace Sys2Proof.Machine

/-- A data read that answers changes nothing but the event record and the two draw counters. -/
theorem memRead_frame {s u : State} {a v : Word} (h : memRead s a = .ok (v, u)) :
    ∃ es c k, u = { s with events := es, consoleReads := c, timerReads := k } := by
  obtain ⟨-, -, rfl⟩ | ⟨-, hio⟩ := memRead_ok h
  · exact ⟨_, _, _, rfl⟩
  · obtain ⟨-, -, rfl⟩ | ⟨-, -, rfl⟩ := ioRead_ok hio <;> exact ⟨_, _, _, rfl⟩

/-- A data write that answers changes nothing but memory and the event record. -/
theorem memWrite_frame {s u : State} {a v : Word} (h : memWrite s a v = .ok u) :
    ∃ m es, u = { s with mem := m, events := es } := by
  obtain ⟨-, rfl⟩ | ⟨-, hio⟩ := memWrite_ok h
  · exact ⟨_, _, rfl⟩
  · obtain ⟨rfl, -⟩ := ioWrite_ok hio
    exact ⟨_, _, rfl⟩

/-- The states an instruction can go on to, by what it writes: `exec_next` says that there is no
other. -/
inductive Completes : Instr → State → State → Prop
  /-- ADD writes the sum and assigns Z, N and C (R211). -/
  | sum (s : State) (rd rs1 rs2 : Reg) :
    Completes (.add rd rs1 rs2) s
      (writeResult s rd (sumOf (readReg s rs1) (readReg s rs2))
        (assignZNC s.flags (readReg s rs1) (readReg s rs2)))
  /-- The other six arithmetic and logical instructions write a result and assign Z and N. -/
  | result {i : Instr} {rd : Reg} (s : State) (r : Word) (hd : destination i = some rd)
      (hzn : writesZN i = true) (hc : writesC i = false) (hdata : accessesData i = false)
      (hhalt : i ≠ .halt) :
    Completes i s (writeResult s rd r (assignZN s.flags r))
  /-- LOAD writes the value its read answers; the read may change the devices (R241). -/
  | load {s : State} {rd rs : Reg} {off : Int} {v : Word} {es : List IoEvent} {c k : Nat}
      (h : memRead s (effectiveAddress s rs off) =
        .ok (v, { s with events := es, consoleReads := c, timerReads := k })) :
    Completes (.load rd rs off) s
      (writeReg { s with events := es, consoleReads := c, timerReads := k } rd v)
  /-- STORE writes memory or a device (R242). -/
  | store {s : State} {rd rs : Reg} {off : Int} {m : Memory} {es : List IoEvent}
      (h : memWrite s (effectiveAddress s rs off) (readReg s rd) =
        .ok { s with mem := m, events := es }) :
    Completes (.store rd rs off) s { s with mem := m, events := es }
  /-- LOADI writes its immediate (R243). -/
  | loadi (s : State) (rd : Reg) (imm : Int) :
    Completes (.loadi rd imm) s (writeReg s rd (immWord imm))
  /-- NOP and the branches move PC by the offset taken, if one is (R260, R280). -/
  | jump {i : Instr} (s : State) (hd : destination i = none) (hzn : writesZN i = false)
      (hc : writesC i = false) (hdata : accessesData i = false) (hhalt : i ≠ .halt) :
    Completes i s { s with pc := (takenOffset s.flags i).elim s.pc (branchTarget s.pc) }
  /-- HALT sets the run state (R281). -/
  | halt (s : State) : Completes .halt s { s with halted := true }

/-- A branch with condition `b` moves PC as `takenOffset` says. -/
theorem branchIf_next {b : Bool} {off : Int} {s t : State} (h : branchIf b off s = .next t) :
    t = { s with pc := (if b = true then some off else none).elim s.pc (branchTarget s.pc) } := by
  rw [branchIf_eq] at h
  cases h
  split <;> rfl

theorem takenOffset_bne (f : Flags) (off : Int) :
    takenOffset f (.bne off) = if takenNe f = true then some off else none := by
  simp only [takenOffset, takenNe, Bool.not_eq_true']

/-- An instruction that goes on does so in one of the ways of `Completes`. -/
theorem exec_next {i : Instr} {s t : State} (h : exec i s = .next t) : Completes i s t := by
  cases i with
  | nop => cases h; exact .jump s rfl rfl rfl rfl nofun
  | add rd rs1 rs2 => cases h; exact .sum s rd rs1 rs2
  | addi rd imm => cases h; exact .result s _ rfl rfl rfl rfl nofun
  | sub rd rs1 rs2 => cases h; exact .result s _ rfl rfl rfl rfl nofun
  | subi rd imm => cases h; exact .result s _ rfl rfl rfl rfl nofun
  | and rd rs1 rs2 => cases h; exact .result s _ rfl rfl rfl rfl nofun
  | or rd rs1 rs2 => cases h; exact .result s _ rfl rfl rfl rfl nofun
  | xor rd rs1 rs2 => cases h; exact .result s _ rfl rfl rfl rfl nofun
  | load rd rs off =>
    obtain ⟨v, u, hread, rfl⟩ := execLoad_next h
    obtain ⟨es, c, k, rfl⟩ := memRead_frame hread
    exact .load hread
  | store rd rs off =>
    have hwrite := execStore_next h
    obtain ⟨m, es, rfl⟩ := memWrite_frame hwrite
    exact .store hwrite
  | loadi rd imm => cases h; exact .loadi s rd imm
  | branch off => exact branchIf_next h ▸ .jump s rfl rfl rfl rfl nofun
  | beq off => exact branchIf_next h ▸ .jump s rfl rfl rfl rfl nofun
  | bne off => exact branchIf_next h ▸ takenOffset_bne s.flags off ▸ .jump s rfl rfl rfl rfl nofun
  | blt off => exact branchIf_next h ▸ .jump s rfl rfl rfl rfl nofun
  | halt => cases h; exact .halt s

/-! ## The registers (R121, R122) -/

/-- An instruction that goes on changes no register but its destination. -/
theorem exec_readReg_of_ne_destination {i : Instr} {s t : State} (h : exec i s = .next t) {r : Reg}
    (hr : destination i ≠ some r) : readReg t r = readReg s r := by
  have hne {rd : Reg} (hd : destination i = some rd) : r ≠ rd := fun e => hr (e ▸ hd)
  cases exec_next h with
  | sum => exact readReg_writeResult_other s _ _ (hne rfl)
  | result _ _ hd => exact readReg_writeResult_other s _ _ (hne hd)
  | load => exact readReg_writeReg_other _ _ (hne rfl)
  | loadi => exact readReg_writeReg_other s _ (hne rfl)
  | store | jump | halt => rfl

/-- Settles O41: the frame of `exec` over the registers, and the law of `writeReg`. -/
theorem registersWrittenAsTheTableSays : Obligations.RegistersWrittenAsTheTableSays :=
  ⟨fun _ _ _ h _ hr => exec_readReg_of_ne_destination h hr, readReg_writeReg⟩

/-! ## The flags (R132, R133) -/

/-- The flags after an instruction that goes on: assigned from a sum with its carry, assigned from a
result, or kept. -/
theorem exec_flags {i : Instr} {s t : State} (h : exec i s = .next t) :
    (∃ rd rs1 rs2, i = .add rd rs1 rs2 ∧ readReg t rd = sumOf (readReg s rs1) (readReg s rs2) ∧
      t.flags = assignZNC s.flags (readReg s rs1) (readReg s rs2)) ∨
    (∃ rd, destination i = some rd ∧ writesZN i = true ∧ writesC i = false ∧
      t.flags = assignZN s.flags (readReg t rd)) ∨
    (writesZN i = false ∧ writesC i = false ∧ t.flags = s.flags) := by
  cases exec_next h with
  | sum => exact .inl ⟨_, _, _, rfl, readReg_writeResult_self .., rfl⟩
  | result _ _ hd hzn hc =>
    exact .inr (.inl ⟨_, hd, hzn, hc, by rw [readReg_writeResult_self, writeResult_flags]⟩)
  | jump _ _ hzn hc => exact .inr (.inr ⟨hzn, hc, rfl⟩)
  | load | store | loadi | halt => exact .inr (.inr ⟨rfl, rfl, rfl⟩)

theorem exec_o_reserved {i : Instr} {s t : State} (h : exec i s = .next t) :
    t.flags.o = s.flags.o ∧ t.flags.reserved = s.flags.reserved := by
  obtain ⟨_, _, _, -, -, hf⟩ | ⟨_, -, -, -, hf⟩ | ⟨-, -, hf⟩ := exec_flags h <;>
    exact hf ▸ ⟨rfl, rfl⟩

/-- Settles O40: the three ways `exec_flags` lists, read flag by flag. -/
theorem flagsWrittenAsTheTableSays : Obligations.FlagsWrittenAsTheTableSays := by
  intro i s t h
  have hkept := exec_o_reserved h
  obtain ⟨rd, rs1, rs2, rfl, hr, hf⟩ | ⟨rd, hd, hzn, hc, hf⟩ | ⟨hzn, hc, hf⟩ := exec_flags h
  · refine ⟨fun _ => ⟨rd, rfl, ?_, ?_⟩, nofun, ?_, nofun, hkept⟩
    · rw [hf, hr, assignZNC_z, zeroOf_eq_true]
    · rw [hf, hr, assignZNC_n, negativeOf]
    · rintro _ _ _ ⟨⟩
      rw [hf, assignZNC_c, carryOf_eq_true]
  · refine ⟨fun _ => ⟨rd, hd, ?_, ?_⟩, ?_, ?_, fun _ => ?_, hkept⟩
    · rw [hf, assignZN_z, zeroOf_eq_true]
    · rw [hf, assignZN_n, negativeOf]
    · simp [hzn]
    · rintro _ _ _ rfl
      cases hc
    · rw [hf, assignZN_c]
  · refine ⟨?_, fun _ => ?_, ?_, fun _ => ?_, hkept⟩
    · simp [hzn]
    · rw [hf]
      exact ⟨rfl, rfl⟩
    · rintro _ _ _ rfl
      cases hc
    · rw [hf]

/-! ## SP, the run state and the fault mark (R128, R136, R301) -/

theorem exec_sp {i : Instr} {s t : State} (h : exec i s = .next t) : t.sp = s.sp := by
  cases exec_next h <;> rfl

theorem exec_faultMark {i : Instr} {s t : State} (h : exec i s = .next t) :
    t.faultMark = s.faultMark := by
  cases exec_next h <;> rfl

theorem exec_halt_halted {s t : State} (h : exec .halt s = .next t) : t.halted = true := by
  cases h
  rfl

theorem exec_halted_of_ne_halt {i : Instr} {s t : State} (h : exec i s = .next t)
    (hi : i ≠ .halt) : t.halted = s.halted := by
  cases exec_next h with
  | halt => exact absurd rfl hi
  | _ => rfl

/-- Settles O43: the step runs one instruction from a state that is neither halted nor faulted. -/
theorem onlyHaltHalts : Obligations.OnlyHaltHalts := by
  intro s t h
  obtain ⟨⟨hhalted, hmark⟩, -, hexec⟩ := step_next h
  refine ⟨(exec_faultMark hexec).trans hmark, fun ht => ?_, fun hi => ?_⟩
  · by_contra hi
    rw [exec_halted_of_ne_halt hexec hi, afterFetch_halted, hhalted] at ht
    cases ht
  · rw [show decode (readWord s s.pc) = .halt from hi] at hexec
    exact exec_halt_halted hexec

/-! ## Whole runs -/

/-- What is kept by the state a step leaves the machine in is kept by any number of steps. -/
theorem stateAfter_induction {P : State → Prop} (hstep : ∀ s, P s → P (standsAfter s (step s))) :
    ∀ (k : Nat) (s : State), P s → P (stateAfter k s)
  | 0, _, h => h
  | k + 1, s, h => stateAfter_induction hstep k _ (hstep s h)

/-- SP, O and the reserved bits, which no instruction writes, are in `t` what they were in `s`. -/
def UnwrittenUnchanged (s t : State) : Prop :=
  t.sp = s.sp ∧ t.flags.o = s.flags.o ∧ t.flags.reserved = s.flags.reserved

theorem UnwrittenUnchanged.refl (s : State) : UnwrittenUnchanged s s := ⟨rfl, rfl, rfl⟩

theorem UnwrittenUnchanged.trans {s t u : State} (h : UnwrittenUnchanged s t)
    (h' : UnwrittenUnchanged t u) : UnwrittenUnchanged s u := by
  obtain ⟨hsp, ho, hres⟩ := h
  obtain ⟨hsp', ho', hres'⟩ := h'
  exact ⟨hsp'.trans hsp, ho'.trans ho, hres'.trans hres⟩

theorem exec_unwrittenUnchanged {i : Instr} {s t : State} (h : exec i s = .next t) :
    UnwrittenUnchanged s t :=
  ⟨exec_sp h, exec_o_reserved h⟩

theorem afterFetch_unwrittenUnchanged (s : State) (w : Word) :
    UnwrittenUnchanged s (afterFetch s w) :=
  ⟨rfl, rfl, rfl⟩

/-- A step keeps SP, O and the reserved bits, one that stops included. -/
theorem standsAfter_step_unwrittenUnchanged (s : State) :
    UnwrittenUnchanged s (standsAfter s (step s)) := by
  cases h : step s with
  | next t =>
    obtain ⟨-, -, hexec⟩ := step_next h
    exact (afterFetch_unwrittenUnchanged s _).trans (exec_unwrittenUnchanged hexec)
  | fault f => exact .refl s
  | refused r => exact .refl s

/-- Settles O44: every step keeps the three, and so does a run. -/
theorem unreachableStateKeepsItsStartValue : Obligations.UnreachableStateKeepsItsStartValue :=
  fun k s => stateAfter_induction (P := UnwrittenUnchanged s)
    (fun u hu => hu.trans (standsAfter_step_unwrittenUnchanged u)) k s (.refl s)

/-! ## Reset (R138, R330) -/

/-- Settles O50: nothing is stored, marked, recorded or drawn at reset. -/
theorem resetMeetsTheInvariant : Obligations.ResetMeetsTheInvariant where
  memory := Memory.wf_nil
  notBoth := .inl rfl
  allowed := nofun
  consoleDraws := rfl
  timerDraws := rfl

/-- Settles O54: with no image to load, each field is the one the launch names. -/
theorem resetIsALaunch : Obligations.ResetIsALaunch := ⟨rfl, rfl, rfl, rfl⟩

/-! ## FLAGS as a byte (R130) -/

/-- Bit `k` of the FLAGS byte is the field R130 puts there. -/
theorem Flags.getLsbD_toByte (f : Flags) (k : Nat) :
    f.toByte.getLsbD k =
      match k with
      | 0 => f.z
      | 1 => f.n
      | 2 => f.c
      | 3 => f.o
      | j + 4 => f.reserved.getLsbD j := by
  change BitVec.getLsbD (w := 4 + 1 + 1 + 1 + 1)
    (f.reserved ++ BitVec.ofBool f.o ++ BitVec.ofBool f.c ++ BitVec.ofBool f.n ++
      BitVec.ofBool f.z) k = _
  simp only [BitVec.getLsbD_append, BitVec.getLsbD_ofBool]
  rcases k with _ | _ | _ | _ | j <;> simp

theorem Flags.extractLsb'_toByte (f : Flags) : f.toByte.extractLsb' 4 4 = f.reserved := by
  apply BitVec.eq_of_getLsbD_eq
  intro k hk
  rw [BitVec.getLsbD_extractLsb', Nat.add_comm, Flags.getLsbD_toByte]
  simp [hk]

theorem Flags.ofByte_toByte (f : Flags) : Flags.ofByte f.toByte = f := by
  simp only [Flags.ofByte, Flags.getLsbD_toByte, Flags.extractLsb'_toByte]

theorem Flags.toByte_ofByte (b : Byte) : (Flags.ofByte b).toByte = b := by
  apply BitVec.eq_of_getLsbD_eq
  intro k hk
  rw [Flags.getLsbD_toByte]
  rcases k with _ | _ | _ | _ | j
  case succ.succ.succ.succ =>
    have hj : j < 4 := by omega
    change (b.extractLsb' 4 4).getLsbD j = b.getLsbD (j + 4)
    simp [hj, Nat.add_comm 4 j]
  all_goals rfl

/-- Settles O57: the bits one by one, then the round trips. -/
theorem flagsRegisterLayout : Obligations.FlagsRegisterLayout :=
  ⟨fun f => ⟨f.getLsbD_toByte 0, f.getLsbD_toByte 1, f.getLsbD_toByte 2, f.getLsbD_toByte 3,
    fun k _ => Nat.add_comm 4 k ▸ f.getLsbD_toByte (k + 4), f.ofByte_toByte⟩, Flags.toByte_ofByte⟩

end Sys2Proof.Machine

/-! ## What an instruction does to memory and the devices (20_memory.md R151, R158, R159) -/

namespace Sys2Proof.Machine

/-- An instruction that makes no data access leaves memory and the devices alone. -/
theorem exec_dataUnchanged {i : Instr} {s t : State} (h : exec i s = .next t)
    (hi : accessesData i = false) : t.mem = s.mem ∧ DevicesUnchanged s t := by
  cases exec_next h with
  | load | store => cases hi
  | _ => exact ⟨rfl, rfl, rfl, rfl, rfl, rfl⟩

theorem PlainData.not_inWindow {a : Word} (h : PlainData a) : ¬ InWindow a := by
  obtain ⟨-, -, hwin⟩ := h
  exact hwin

/-- A LOAD that goes on has read two bytes of plain storage or one device register (R241). -/
theorem exec_load_cases {rd rs : Reg} {off : Int} {s t : State}
    (h : exec (.load rd rs off) s = .next t) :
    (PlainData (effectiveAddress s rs off) ∧
      t = writeReg s rd (readWord s (effectiveAddress s rs off))) ∨
    (InWindow (effectiveAddress s rs off) ∧ ∃ v u,
      ioRead s (effectiveAddress s rs off) = .ok (v, u) ∧ t = writeReg u rd v) := by
  obtain ⟨v, u, hread, rfl⟩ := execLoad_next h
  obtain ⟨hplain, rfl, rfl⟩ | ⟨hwin, hio⟩ := memRead_ok hread
  · exact .inl ⟨hplain, rfl⟩
  · exact .inr ⟨hwin, v, u, hio, rfl⟩

/-- A STORE that goes on has written two bytes of plain storage or one device register (R242). -/
theorem exec_store_cases {rd rs : Reg} {off : Int} {s t : State}
    (h : exec (.store rd rs off) s = .next t) :
    (PlainData (effectiveAddress s rs off) ∧
      t = writeWord s (effectiveAddress s rs off) (readReg s rd)) ∨
    (InWindow (effectiveAddress s rs off) ∧
      EventAllowed (.write (effectiveAddress s rs off) (readReg s rd)) ∧
      t = recordEvent s (.write (effectiveAddress s rs off) (readReg s rd))) := by
  obtain hplain | ⟨hwin, hio⟩ := memWrite_ok (execStore_next h)
  · exact .inl hplain
  · obtain ⟨rfl, hallowed⟩ := ioWrite_ok hio
    exact .inr ⟨hwin, hallowed, rfl⟩

/-- A device read that answers is recorded, last of all (R310). -/
theorem ioRead_ok_events {s u : State} {a v : Word} (h : ioRead s a = .ok (v, u)) :
    u.events = s.events ++ [.read a v] := by
  obtain ⟨-, -, rfl⟩ | ⟨-, -, rfl⟩ := ioRead_ok h <;> rfl

/-! ## The invariant (20_memory.md R154, R155, 60_exceptions.md R310 to R316) -/

/-! ### What an event adds to the reads of an address -/

theorem readsFrom_append (a : Word) (es es' : List IoEvent) :
    readsFrom a (es ++ es') = readsFrom a es ++ readsFrom a es' :=
  List.filterMap_append ..

theorem readsFrom_read_self (a v : Word) : readsFrom a [.read a v] = [v] := by
  simp [readsFrom]

theorem readsFrom_read_other {a b : Word} (v : Word) (h : b ≠ a) :
    readsFrom a [.read b v] = [] := by
  simp [readsFrom, h]

theorem readsFrom_write (a b v : Word) : readsFrom a [.write b v] = [] := rfl

/-- A recorded event that reads nothing from `a` leaves the reads of `a` as they were. -/
theorem readsFrom_append_of_nil {a : Word} {e : IoEvent} (he : readsFrom a [e] = [])
    (es : List IoEvent) : readsFrom a (es ++ [e]) = readsFrom a es := by
  rw [readsFrom_append, he, List.append_nil]

/-- One more draw from a stream is the next element of it (R313, R316). -/
theorem readsFrom_append_draw {a : Word} {es : List IoEvent} {n : Nat} {f : Nat → Word}
    (h : readsFrom a es = (List.range n).map f) :
    readsFrom a (es ++ [.read a (f n)]) = (List.range (n + 1)).map f := by
  rw [readsFrom_append, readsFrom_read_self, h, List.range_succ, List.map_append, List.map_singleton]

namespace Invariant

variable {s t : State}

/-- The invariant speaks of memory, the devices, the run state and the fault mark only. -/
theorem of_dataUnchanged (h : Invariant s) (hmem : t.mem = s.mem) (hdev : DevicesUnchanged s t)
    (hrun : t.faultMark = none ∨ t.halted = false) : Invariant t := by
  obtain ⟨hevents, hconsole, htimer, hconsoleIn, htimerIn⟩ := hdev
  have hce : consoleElement t = consoleElement s := by
    funext k
    rw [consoleElement, consoleElement, hconsoleIn]
  have hte : timerElement t = timerElement s := by
    funext k
    rw [timerElement, timerElement, htimerIn]
  exact {
    memory := hmem ▸ h.memory
    notBoth := hrun
    allowed := hevents ▸ h.allowed
    consoleDraws := by rw [hevents, hconsole, hce, h.consoleDraws]
    timerDraws := by rw [hevents, htimer, hte, h.timerDraws] }

theorem after_writeReg (h : Invariant s) (rd : Reg) (v : Word) : Invariant (writeReg s rd v) :=
  { h with }

theorem after_fetch (h : Invariant s) (w : Word) : Invariant (afterFetch s w) :=
  { h with }

/-- A store to plain storage keeps memory canonical. -/
theorem after_writeWord (h : Invariant s) {a : Word} (v : Word) (ha : PlainData a) :
    Invariant (writeWord s a v) :=
  { h with memory := writeWord_wf v h.memory ha }

theorem allowed_append (h : Invariant s) {e : IoEvent} (he : EventAllowed e) :
    ∀ e' ∈ s.events ++ [e], EventAllowed e' :=
  List.forall_mem_append.2 ⟨h.allowed, List.forall_mem_singleton.2 he⟩

/-- A device write is recorded and draws nothing (R311). -/
theorem after_deviceWrite (h : Invariant s) {a v : Word} (he : EventAllowed (.write a v)) :
    Invariant (recordEvent s (.write a v)) :=
  { h with
    allowed := h.allowed_append he
    consoleDraws := (readsFrom_append_of_nil (readsFrom_write ..) _).trans h.consoleDraws
    timerDraws := (readsFrom_append_of_nil (readsFrom_write ..) _).trans h.timerDraws }

/-- A device read draws the next element of its own stream and none of the other (R313, R316). -/
theorem after_ioRead (h : Invariant s) {a v : Word} (hio : ioRead s a = .ok (v, t)) : Invariant t := by
  obtain ⟨rfl, rfl, rfl⟩ | ⟨rfl, rfl, rfl⟩ := ioRead_ok hio
  · exact { h with
      allowed := h.allowed_append (.inl rfl)
      consoleDraws := readsFrom_append_draw h.consoleDraws
      timerDraws :=
        (readsFrom_append_of_nil (readsFrom_read_other _ (by decide)) _).trans h.timerDraws }
  · exact { h with
      allowed := h.allowed_append (.inr rfl)
      consoleDraws :=
        (readsFrom_append_of_nil (readsFrom_read_other _ (by decide)) _).trans h.consoleDraws
      timerDraws := readsFrom_append_draw h.timerDraws }

/-- The execute phase keeps the invariant in a state with no fault mark. -/
theorem after_exec {i : Instr} (h : Invariant s) (hmark : s.faultMark = none)
    (hexec : exec i s = .next t) : Invariant t := by
  cases hi : accessesData i with
  | false =>
    obtain ⟨hmem, hdev⟩ := exec_dataUnchanged hexec hi
    exact h.of_dataUnchanged hmem hdev (.inl ((exec_faultMark hexec).trans hmark))
  | true =>
    cases i with
    | load rd rs off =>
      obtain ⟨-, rfl⟩ | ⟨-, v, u, hio, rfl⟩ := exec_load_cases hexec
      · exact h.after_writeReg rd _
      · exact (h.after_ioRead hio).after_writeReg rd v
    | store rd rs off =>
      obtain ⟨hplain, rfl⟩ | ⟨-, hallowed, rfl⟩ := exec_store_cases hexec
      · exact h.after_writeWord _ hplain
      · exact h.after_deviceWrite hallowed
    | _ => cases hi

end Invariant

/-- Settles O48: the fetch phase keeps the invariant, and so does each instruction. -/
theorem stepKeepsTheInvariant : Obligations.StepKeepsTheInvariant := by
  intro s t h hstep
  obtain ⟨⟨-, hmark⟩, -, hexec⟩ := step_next hstep
  exact (h.after_fetch _).after_exec hmark hexec

/-- Settles O42: a LOAD writes a register and the devices at most. -/
theorem onlyLoadAndStoreReachData : Obligations.OnlyLoadAndStoreReachData := by
  intro i s t h
  refine ⟨fun hi => ?_, ?_⟩
  · obtain ⟨hmem, hdev⟩ := exec_dataUnchanged h hi
    exact ⟨fun a => by rw [readByte, readByte, hmem], hdev⟩
  · rintro rd rs off rfl
    cases exec_next h with
    | load => exact fun _ => rfl
    | result _ _ _ _ _ hdata => cases hdata
    | jump _ _ _ _ hdata => cases hdata

/-! ## The event record (R165, R166) -/

/-- What an instruction that goes on adds to the event record: a LOAD or STORE in the window the
access it makes, and nothing else. -/
theorem exec_events {i : Instr} {s t : State} (h : exec i s = .next t) :
    (∃ rd rs off, i = .load rd rs off ∧ InWindow (effectiveAddress s rs off) ∧
      t.events = s.events ++ [.read (effectiveAddress s rs off) (readReg t rd)]) ∨
    (∃ rd rs off, i = .store rd rs off ∧ InWindow (effectiveAddress s rs off) ∧
      t.events = s.events ++ [.write (effectiveAddress s rs off) (readReg s rd)]) ∨
    (t.events = s.events ∧ ∀ rd rs off, i = .load rd rs off ∨ i = .store rd rs off →
      ¬ InWindow (effectiveAddress s rs off)) := by
  cases hi : accessesData i with
  | false =>
    obtain ⟨-, hevents, -⟩ := exec_dataUnchanged h hi
    refine .inr (.inr ⟨hevents, ?_⟩)
    rintro _ _ _ (rfl | rfl) <;> cases hi
  | true =>
    cases i with
    | load rd rs off =>
      obtain ⟨hplain, rfl⟩ | ⟨hwin, v, u, hio, rfl⟩ := exec_load_cases h
      · refine .inr (.inr ⟨rfl, ?_⟩)
        rintro _ _ _ (he | he) <;> cases he
        exact hplain.not_inWindow
      · refine .inl ⟨rd, rs, off, rfl, hwin, ?_⟩
        rw [writeReg_events, readReg_writeReg_self, ioRead_ok_events hio]
    | store rd rs off =>
      obtain ⟨hplain, rfl⟩ | ⟨hwin, -, rfl⟩ := exec_store_cases h
      · refine .inr (.inr ⟨rfl, ?_⟩)
        rintro _ _ _ (he | he) <;> cases he
        exact hplain.not_inWindow
      · exact .inr (.inl ⟨rd, rs, off, rfl, hwin, rfl⟩)
    | _ => cases hi

/-- Settles O45: the fetch phase leaves the record and every effective address as they were. -/
theorem eventRecordGrowsByTheAccessMade : Obligations.EventRecordGrowsByTheAccessMade := by
  intro s t hstep
  obtain ⟨-, -, hexec⟩ := step_next hstep
  obtain hread | hwrite | ⟨hevents, hnot⟩ := exec_events hexec
  · refine ⟨.inr (.inl hread), fun _ _ _ _ _ => ?_⟩
    obtain ⟨_, _, _, _, _, hevents⟩ := hread
    rw [hevents]
    exact List.length_append
  · refine ⟨.inr (.inr hwrite), fun _ _ _ _ _ => ?_⟩
    obtain ⟨_, _, _, _, _, hevents⟩ := hwrite
    rw [hevents]
    exact List.length_append
  · exact ⟨.inl hevents, fun rd rs off hi hwin => absurd hwin (hnot rd rs off hi)⟩

/-! ## Canonical memory (R154) -/

/-- In canonical memory the byte listed for an address is the one of its only cell. -/
theorem Memory.lookup_eq_some_iff {m : Memory} (h : m.Pairwise fun p q => p.1 < q.1) (a : Nat)
    (v : Byte) : m.lookup a = some v ↔ (a, v) ∈ m := by
  induction m with
  | nil => simp [Memory.lookup]
  | cons c m ih =>
    obtain ⟨k, b⟩ := c
    obtain ⟨hk, hm⟩ := List.pairwise_cons.1 h
    by_cases hak : a = k
    · have hnot : (k, v) ∉ m := fun hc => Nat.lt_irrefl k (hk _ hc)
      simp [Memory.lookup, hak, hnot, eq_comm]
    · simp [Memory.lookup, hak, ih hm]

/-- Settles O52: the two lists have the same cells, and lists with rising addresses are fixed by
their cells. -/
theorem equalMemoriesAreEqualLists : Obligations.EqualMemoriesAreEqualLists := by
  intro m m' hm hm' hlookup
  obtain ⟨hrise, -⟩ := m.wf_iff.1 hm
  obtain ⟨hrise', -⟩ := m'.wf_iff.1 hm'
  have : Std.Antisymm fun p q : Host.Cell => p.1 < q.1 := ⟨fun _ _ h h' => absurd h h'.asymm⟩
  have : Std.Irrefl fun p q : Host.Cell => p.1 < q.1 := ⟨fun p => Nat.lt_irrefl p.1⟩
  refine hrise.eq_of_mem_iff hrise' fun (a, v) => ?_
  rw [← Memory.lookup_eq_some_iff hrise, ← Memory.lookup_eq_some_iff hrise', hlookup]

/-! ## What a STORE leaves to be read (R157, R164, R166) -/

theorem exec_store_plain {rd rs : Reg} {off : Int} {s t : State}
    (h : exec (.store rd rs off) s = .next t) (hplain : PlainData (effectiveAddress s rs off)) :
    t = writeWord s (effectiveAddress s rs off) (readReg s rd) := by
  obtain ⟨-, ht⟩ | ⟨hwin, -⟩ := exec_store_cases h
  · exact ht
  · exact absurd hwin hplain.not_inWindow

/-- A LOAD at a plain address `a` goes on and gives the word at `a`. -/
theorem exec_load_plain {rd rs : Reg} {off : Int} {s : State} {a : Word}
    (ha : effectiveAddress s rs off = a) (hplain : PlainData a) :
    ∃ t, exec (.load rd rs off) s = .next t ∧ readReg t rd = readWord s a := by
  subst ha
  exact ⟨_, exec_load_of_memRead (memRead_plain hplain), readReg_writeReg_self ..⟩

/-- The address above one that is not the last does not wrap (R150). -/
theorem toNat_add_one_of_storage {a : Word} (h : IsStorage (a.toNat + 1)) :
    (a + 1#16).toNat = a.toNat + 1 := by
  obtain ⟨hlt, -⟩ := h
  exact BitVec.toNat_add_of_lt hlt

theorem PlainData.toNat_add_one {a : Word} (h : PlainData a) : (a + 1#16).toNat = a.toNat + 1 :=
  toNat_add_one_of_storage h.storage.2

theorem Fetchable.toNat_add_one {a : Word} (h : Fetchable a) : (a + 1#16).toNat = a.toNat + 1 :=
  toNat_add_one_of_storage h.storage.2

/-- The word one byte below a word just written has its low byte above the older byte. -/
theorem readWord_writeWord_pred (s : State) {a : Word} (v : Word)
    (ha : (a + 1#16).toNat = a.toNat + 1) :
    readWord (writeWord s (a + 1#16) v) a = wordOfBytes (readByte s a.toNat) (lowByte v) := by
  rw [readWord, readByte_writeWord_other s _ v (by omega) (by omega), ← ha,
    readByte_writeWord_low]

/-- The word one byte above a word just written has its high byte below the byte after it. -/
theorem readWord_writeWord_succ (s : State) {a : Word} (v : Word)
    (ha : (a + 1#16).toNat = a.toNat + 1) :
    readWord (writeWord s a v) (a + 1#16) =
      wordOfBytes (highByte v) (readByte s ((a + 1#16).toNat + 1)) := by
  rw [readWord, readByte_writeWord_other s a v (b := (a + 1#16).toNat + 1) (by omega) (by omega), ha,
    readByte_writeWord_high]

/-- A word that shares no byte with the one just written reads as before. -/
theorem readWord_writeWord_other (s : State) {a b : Word} (v : Word) (h : b.toNat ≠ a.toNat)
    (hsucc : b.toNat ≠ a.toNat + 1) (hpred : a.toNat ≠ b.toNat + 1) :
    readWord (writeWord s a v) b = readWord s b := by
  rw [readWord, readWord, readByte_writeWord_other s a v h hsucc,
    readByte_writeWord_other s a v hpred.symm (by omega)]

theorem readWord_congr_bytes {s t : State} {a : Word}
    (hlow : readByte s a.toNat = readByte t a.toNat)
    (hhigh : readByte s (a.toNat + 1) = readByte t (a.toNat + 1)) : readWord s a = readWord t a := by
  rw [readWord, readWord, hlow, hhigh]

theorem exec_ir {i : Instr} {s t : State} (h : exec i s = .next t) : t.ir = s.ir := by
  cases exec_next h <;> rfl

/-- Settles O7: a STORE writes the bytes of the register, and a LOAD and the fetch phase read the
word two bytes make. -/
theorem littleEndianEverywhere : Obligations.LittleEndianEverywhere := by
  refine ⟨fun rd rs off s t hplain h => ?_, fun rd rs off s t hplain h => ?_, fun s t hstep => ?_,
    by decide⟩
  · rw [exec_store_plain h hplain, readByte_writeWord_low, readByte_writeWord_high]
    exact ⟨lowByte_toNat _, highByte_toNat _⟩
  · obtain ⟨u, hu, hval⟩ := exec_load_plain rfl hplain
    obtain rfl : u = t := Host.Outcome.next.inj (hu.symm.trans h)
    rw [hval, readWord, wordOfBytes_toNat]
  · obtain ⟨-, -, hexec⟩ := step_next hstep
    rw [exec_ir hexec, afterFetch_ir, readWord, wordOfBytes_toNat]

/-- Settles O28: a word just written reads back. -/
theorem loadReturnsTheStoredValue : Obligations.LoadReturnsTheStoredValue := by
  intro rd rs rd' rs' off off' s t u ea hstore hplain hlow hhigh hea
  have hword : readWord u ea = readReg s rd := by
    rw [readWord_congr_bytes hlow hhigh, exec_store_plain hstore hplain, readWord_writeWord_self]
  exact hword ▸ exec_load_plain hea hplain

/-- Settles O29: the second STORE writes over the high byte of the first word and leaves the low one. -/
theorem overlappingStores : Obligations.OverlappingStores := by
  intro rd rs rd' rs' rd'' rs'' off off' off'' s t u hfirst hplain hsecond hplain' hnext
  have ht := exec_store_plain hfirst hplain
  have hu := exec_store_plain hsecond hplain'
  rw [hnext] at hu hplain'
  refine ⟨fun hea => ?_, fun hea => ?_⟩
  · obtain ⟨v, hload, hval⟩ := exec_load_plain hea hplain
    refine ⟨v, hload, ?_⟩
    rw [hval, hu, readWord_writeWord_pred t _ hplain.toNat_add_one, wordOfBytes_toNat, lowByte_toNat]
    rw [ht, readByte_writeWord_low, lowByte_toNat]
  · have hword : readWord u (effectiveAddress s rs off + 1#16) = readReg t rd' := by
      rw [hu, readWord_writeWord_self]
    exact hword ▸ exec_load_plain hea hplain'

/-! ## What a fetch sees (R160, R168) -/

/-- A device write is no neighbour of a word that can be fetched: the one address outside the window
next to a register that takes writes is 0xEFFF, which is odd (R160, R311). -/
theorem Fetchable.apart_of_eventAllowed_write {p a v : Word} (hp : Fetchable p)
    (ha : EventAllowed (.write a v)) : p ≠ a ∧ a ≠ p + 1#16 ∧ p ≠ a + 1#16 := by
  obtain ⟨heven, hwin⟩ := hp
  unfold InWindow at hwin
  obtain rfl | ⟨rfl, -⟩ | rfl := ha <;> bv_omega

/-- Settles O30: the word at PC is read after the STORE, at, below, above or apart from its address;
a STORE to a device leaves it as it was. -/
theorem fetchSeesTheStore : Obligations.FetchSeesTheStore := by
  intro rd rs off s t u ea v hstore hrun hpc hlow hhigh
  refine ⟨readWord t u.pc, readWord_congr_bytes hlow hhigh ▸ step_of_fetch hrun hpc, ?_⟩
  obtain ⟨hplain, rfl⟩ | ⟨-, hallowed, rfl⟩ := exec_store_cases hstore
  · refine ⟨fun h => ?_, fun h => ?_, fun h => ?_, fun h hpred hsucc => ?_⟩
    · rw [h]
      exact readWord_writeWord_self s ea v
    · change readWord (writeWord s ea v) u.pc = _
      rw [h]
      exact readWord_writeWord_pred s v hpc.toNat_add_one
    · rw [h]
      exact readWord_writeWord_succ s v hplain.toNat_add_one
    · exact readWord_writeWord_other s v (BitVec.toNat_ne.1 h)
        (hplain.toNat_add_one ▸ BitVec.toNat_ne.1 hsucc)
        (hpc.toNat_add_one ▸ BitVec.toNat_ne.1 hpred)
  · obtain ⟨hne, hpred, hsucc⟩ := hpc.apart_of_eventAllowed_write hallowed
    exact ⟨fun h => absurd h hne, fun h => absurd h hpred, fun h => absurd h hsucc,
      fun _ _ _ => rfl⟩

theorem fetchRead_odd (s : State) {a : Word} (h : a.toNat % 2 = 1) :
    fetchRead s a = .error (.misalignedFetch a) := if_pos h

theorem fetchRead_window (s : State) {a : Word} (heven : a.toNat % 2 = 0) (hwin : InWindow a) :
    fetchRead s a = .error (.fetchFromIo a) := by
  rw [fetchRead, if_neg (by omega), if_pos hwin]

theorem step_of_fetchRead_error {s : State} {f : Fault} (hrun : Running s)
    (h : fetchRead s s.pc = .error f) : step s = .fault f := by
  obtain ⟨hhalted, hmark⟩ := hrun
  simp [step, hhalted, hmark, h, raiseFault]

/-- Settles O9: a running machine stops with the fault of its fetch phase. -/
theorem fetchFaults : Obligations.FetchFaults := fun s hrun =>
  ⟨fun hodd => step_of_fetchRead_error hrun (fetchRead_odd s hodd),
    fun ⟨heven, hwin⟩ => step_of_fetchRead_error hrun (fetchRead_window s heven hwin),
    fetchRead_fetchable⟩

/-! ## The memory map (R153, R155) -/

/-- Settles O56: the bounds split the addresses in three, and the middle part holds no storage. -/
theorem memoryMap : Obligations.MemoryMap := by
  intro a
  have hlt := a.isLt
  unfold regionOf IsStorage
  split_ifs with hram hwin
  · simp only [true_iff, false_iff, or_false, iff_true]
    omega
  · simp only [true_iff, false_iff, or_self, iff_false]
    omega
  · simp only [true_iff, false_iff, or_true, iff_true]
    omega

end Sys2Proof.Machine

/-! ## Decoder and encoder (30_encoding.md R180 to R193) -/

namespace Sys2Proof

/-! ### Fields under a mask (R189, R192) -/

/-- Bits replaced outside a field leave the field as it was. -/
theorem extractLsb'_replace {w u m : Word} {lo n : Nat}
    (hm : m.extractLsb' lo n = BitVec.allOnes n) :
    ((w &&& m) ||| (u &&& ~~~m)).extractLsb' lo n = w.extractLsb' lo n := by
  apply BitVec.eq_of_getLsbD_eq
  intro k hk
  have hbit : m.getLsbD (lo + k) = true := by
    simpa [hk] using congrArg (fun v : BitVec n => v.getLsbD k) hm
  simp [hk, hbit]

theorem opcodeField_replace {w u m : Word} (hm : m.extractLsb' 12 4 = BitVec.allOnes 4) :
    opcodeField ((w &&& m) ||| (u &&& ~~~m)) = opcodeField w := extractLsb'_replace hm

theorem regField_replace {w u m : Word} {lo : Nat} (hm : m.extractLsb' lo 3 = BitVec.allOnes 3) :
    regField ((w &&& m) ||| (u &&& ~~~m)) lo = regField w lo :=
  congrArg BitVec.toFin (extractLsb'_replace hm)

/-- Setting the low `n` bits of a word to zero, as a number. -/
theorem and_allOnes_shiftLeft_toNat (w : Word) (n : Nat) :
    (w &&& BitVec.allOnes 16 <<< n).toNat = w.toNat / 2 ^ n * 2 ^ n := by
  have hle := Nat.div_mul_le_self w.toNat (2 ^ n)
  rw [← BitVec.shiftLeft_ushiftRight, BitVec.toNat_shiftLeft, BitVec.toNat_ushiftRight,
    Nat.shiftLeft_eq, Nat.shiftRight_eq_div_pow, Nat.mod_eq_of_lt (by omega)]

/-- R189: the 16-bit value of a field of `k + 1` bits at the low end is the field, with all the bits
above it or-ed in when its top bit is 1. -/
theorem immWord_lowField (w : Word) (k : Nat) :
    Machine.immWord (w.extractLsb' 0 (k + 1)).toInt =
      if w.getLsbD k = true then
        BitVec.allOnes 16 <<< (k + 1) ||| (w &&& ~~~(BitVec.allOnes 16 <<< (k + 1)))
      else w &&& ~~~(BitVec.allOnes 16 <<< (k + 1)) := by
  rw [immWord_toInt]
  have hmsb : (w.extractLsb' 0 (k + 1)).msb = w.getLsbD k := by simp [BitVec.msb_eq_getLsbD_last]
  apply BitVec.eq_of_getLsbD_eq
  intro j hj
  have hmask : (BitVec.allOnes 16 <<< (k + 1)).getLsbD j = !decide (j < k + 1) := by
    rw [BitVec.getLsbD_shiftLeft, BitVec.getLsbD_allOnes, decide_eq_true hj,
      decide_eq_true (by omega : j - (k + 1) < 16), Bool.true_and, Bool.and_true]
  rw [BitVec.getLsbD_eq_getElem hj] at hmask
  generalize BitVec.allOnes 16 <<< (k + 1) = mask at hmask ⊢
  rw [BitVec.getLsbD_signExtend, hmsb]
  by_cases htop : w.getLsbD k = true <;> by_cases hlow : j < k + 1 <;>
    simp [hj, htop, hlow, hmask]

/-! ### The numbers read from the immediate fields lie in range (R189) -/

theorem fitsImm9_imm9Field (w : Word) : fitsImm9 (imm9Field w) = true :=
  decide_eq_true ⟨BitVec.le_toInt _, Int.le_of_lt_add_one BitVec.toInt_lt⟩

theorem fitsOff6_off6Field (w : Word) : fitsOff6 (off6Field w) = true :=
  decide_eq_true ⟨BitVec.le_toInt _, Int.le_of_lt_add_one BitVec.toInt_lt⟩

theorem fitsOff12_off12Field (w : Word) : fitsOff12 (off12Field w) = true :=
  decide_eq_true ⟨BitVec.le_toInt _, Int.le_of_lt_add_one BitVec.toInt_lt⟩

/-! ### The fields of a format's word are its operands (R183 to R187) -/

theorem extractLsb'_zero_eq_of_mod {w : Word} {n : Nat} {v : BitVec n}
    (h : w.toNat % 2 ^ n = v.toNat) : w.extractLsb' 0 n = v := by
  apply BitVec.eq_of_toNat_eq
  rw [BitVec.extractLsb'_toNat, Nat.shiftRight_zero, h]

@[simp] theorem regField_format1 (op : BitVec 4) (rd rs1 rs2 : Reg) :
    regField (format1 op rd rs1 rs2) 9 = rd ∧ regField (format1 op rd rs1 rs2) 6 = rs1 ∧
      regField (format1 op rd rs1 rs2) 3 = rs2 := by
  refine ⟨Fin.ext ?_, Fin.ext ?_, Fin.ext ?_⟩ <;> rw [regField_val, format1_toNat] <;> omega

@[simp] theorem regField_format2 (op : BitVec 4) (rd : Reg) (n : Int) :
    regField (format2 op rd n) 9 = rd := by
  have := (BitVec.ofInt 9 n).isLt
  apply Fin.ext
  rw [regField_val, format2_toNat]
  omega

theorem imm9Field_format2 (op : BitVec 4) (rd : Reg) {n : Int} (h : fitsImm9 n = true) :
    imm9Field (format2 op rd n) = n := by
  have hlow : (format2 op rd n).toNat % 2 ^ 9 = (BitVec.ofInt 9 n).toNat := by
    have := (BitVec.ofInt 9 n).isLt
    rw [format2_toNat]
    omega
  rw [imm9Field, extractLsb'_zero_eq_of_mod hlow, toInt_ofInt9 n h]

@[simp] theorem regField_format3 (op : BitVec 4) (rd rs : Reg) (n : Int) :
    regField (format3 op rd rs n) 9 = rd ∧ regField (format3 op rd rs n) 6 = rs := by
  have := (BitVec.ofInt 6 n).isLt
  refine ⟨Fin.ext ?_, Fin.ext ?_⟩ <;> rw [regField_val, format3_toNat] <;> omega

theorem off6Field_format3 (op : BitVec 4) (rd rs : Reg) {n : Int} (h : fitsOff6 n = true) :
    off6Field (format3 op rd rs n) = n := by
  have hlow : (format3 op rd rs n).toNat % 2 ^ 6 = (BitVec.ofInt 6 n).toNat := by
    have := (BitVec.ofInt 6 n).isLt
    rw [format3_toNat]
    omega
  rw [off6Field, extractLsb'_zero_eq_of_mod hlow, toInt_ofInt6 n h]

theorem off12Field_format4 (op : BitVec 4) {n : Int} (h : fitsOff12 n = true) :
    off12Field (format4 op n) = n := by
  have hlow : (format4 op n).toNat % 2 ^ 12 = (BitVec.ofInt 12 n).toNat := by
    have := (BitVec.ofInt 12 n).isLt
    rw [format4_toNat]
    omega
  rw [off12Field, extractLsb'_zero_eq_of_mod hlow, toInt_ofInt12 n h]

/-! ### The word a format makes of a word's own fields (R192) -/

section
variable {w : Word} {op : BitVec 4} (h : opcodeField w = op)
include h

theorem format0_of_opcodeField : format0 op = w &&& 0xF000 := by
  apply BitVec.eq_of_toNat_eq
  rw [← h, format0_toNat, opcodeField_toNat]
  exact (and_allOnes_shiftLeft_toNat w 12).symm

theorem format1_of_opcodeField :
    format1 op (regField w 9) (regField w 6) (regField w 3) = w &&& 0xFFF8 := by
  apply BitVec.eq_of_toNat_eq
  have hmask : (w &&& 0xFFF8).toNat = w.toNat / 2 ^ 3 * 2 ^ 3 := and_allOnes_shiftLeft_toNat w 3
  rw [← h, format1_toNat, hmask, opcodeField_toNat, regField_val, regField_val, regField_val]
  omega

theorem format2_of_opcodeField : format2 op (regField w 9) (imm9Field w) = w := by
  apply BitVec.eq_of_toNat_eq
  rw [← h, format2_toNat, imm9Field, BitVec.ofInt_toInt, BitVec.extractLsb'_toNat,
    Nat.shiftRight_zero, opcodeField_toNat, regField_val]
  omega

theorem format3_of_opcodeField :
    format3 op (regField w 9) (regField w 6) (off6Field w) = w := by
  apply BitVec.eq_of_toNat_eq
  rw [← h, format3_toNat, off6Field, BitVec.ofInt_toInt, BitVec.extractLsb'_toNat,
    Nat.shiftRight_zero, opcodeField_toNat, regField_val, regField_val]
  omega

theorem format4_of_opcodeField : format4 op (off12Field w) = w := by
  apply BitVec.eq_of_toNat_eq
  rw [← h, format4_toNat, off12Field, BitVec.ofInt_toInt, BitVec.extractLsb'_toNat,
    Nat.shiftRight_zero, opcodeField_toNat]
  omega

end

/-! ### Decoding as a relation (R191) -/

/-- R191: the word's opcode is the instruction's, and the fields of its format are the operands.
`decodesTo_iff` says that this is what `decode` answers. -/
inductive DecodesTo (w : Word) : Instr → Prop
  | nop (h : opcodeField w = 0x0#4) : DecodesTo w .nop
  | add (h : opcodeField w = 0x1#4) :
    DecodesTo w (.add (regField w 9) (regField w 6) (regField w 3))
  | addi (h : opcodeField w = 0x2#4) : DecodesTo w (.addi (regField w 9) (imm9Field w))
  | sub (h : opcodeField w = 0x3#4) :
    DecodesTo w (.sub (regField w 9) (regField w 6) (regField w 3))
  | subi (h : opcodeField w = 0x4#4) : DecodesTo w (.subi (regField w 9) (imm9Field w))
  | and (h : opcodeField w = 0x5#4) :
    DecodesTo w (.and (regField w 9) (regField w 6) (regField w 3))
  | or (h : opcodeField w = 0x6#4) :
    DecodesTo w (.or (regField w 9) (regField w 6) (regField w 3))
  | xor (h : opcodeField w = 0x7#4) :
    DecodesTo w (.xor (regField w 9) (regField w 6) (regField w 3))
  | load (h : opcodeField w = 0x8#4) :
    DecodesTo w (.load (regField w 9) (regField w 6) (off6Field w))
  | store (h : opcodeField w = 0x9#4) :
    DecodesTo w (.store (regField w 9) (regField w 6) (off6Field w))
  | loadi (h : opcodeField w = 0xA#4) : DecodesTo w (.loadi (regField w 9) (imm9Field w))
  | branch (h : opcodeField w = 0xB#4) : DecodesTo w (.branch (off12Field w))
  | beq (h : opcodeField w = 0xC#4) : DecodesTo w (.beq (off12Field w))
  | bne (h : opcodeField w = 0xD#4) : DecodesTo w (.bne (off12Field w))
  | blt (h : opcodeField w = 0xE#4) : DecodesTo w (.blt (off12Field w))
  | halt (h : opcodeField w = 0xF#4) : DecodesTo w .halt

/-- The opcode is the word's top four bits, the ones `decode` matches on (R181). -/
theorem opcodeField_eq_iff {w : Word} {op : BitVec 4} :
    opcodeField w = op ↔ w.getLsbD 15 = op.getLsbD 3 ∧ w.getLsbD 14 = op.getLsbD 2 ∧
      w.getLsbD 13 = op.getLsbD 1 ∧ w.getLsbD 12 = op.getLsbD 0 := by
  constructor
  · rintro rfl
    exact ⟨(opcodeField_getLsbD w 3 (by decide)).symm, (opcodeField_getLsbD w 2 (by decide)).symm,
      (opcodeField_getLsbD w 1 (by decide)).symm, (opcodeField_getLsbD w 0 (by decide)).symm⟩
  · rintro ⟨h3, h2, h1, h0⟩
    apply BitVec.eq_of_getLsbD_eq
    intro k hk
    rw [opcodeField_getLsbD w k hk]
    match k, hk with
    | 0, _ => exact h0
    | 1, _ => exact h1
    | 2, _ => exact h2
    | 3, _ => exact h3

theorem DecodesTo.decode_eq {w : Word} {i : Instr} (h : DecodesTo w i) : decode w = i := by
  cases h
  all_goals
    rename_i hop
    obtain ⟨h3, h2, h1, h0⟩ := opcodeField_eq_iff.1 hop
    unfold decode
    rw [h3, h2, h1, h0]
    rfl

theorem decodesTo_decode (w : Word) : DecodesTo w (decode w) := by
  unfold decode
  split
  all_goals
    rename_i h3 h2 h1 h0
    constructor
    exact opcodeField_eq_iff.2 ⟨h3, h2, h1, h0⟩

theorem decodesTo_iff {w : Word} {i : Instr} : DecodesTo w i ↔ decode w = i :=
  ⟨DecodesTo.decode_eq, fun h => h ▸ decodesTo_decode w⟩

/-! ### Decode of encode -/

/-- The encoder puts the opcode and each operand where the decoder reads it. -/
theorem decodesTo_encode {i : Instr} (h : i.wellFormed = true) : DecodesTo (encode i) i := by
  cases i with
  | nop => exact .nop (opcodeField_format0 _)
  | halt => exact .halt (opcodeField_format0 _)
  | add rd rs1 rs2 => simpa [encode] using DecodesTo.add (opcodeField_format1 0x1 rd rs1 rs2)
  | sub rd rs1 rs2 => simpa [encode] using DecodesTo.sub (opcodeField_format1 0x3 rd rs1 rs2)
  | and rd rs1 rs2 => simpa [encode] using DecodesTo.and (opcodeField_format1 0x5 rd rs1 rs2)
  | or rd rs1 rs2 => simpa [encode] using DecodesTo.or (opcodeField_format1 0x6 rd rs1 rs2)
  | xor rd rs1 rs2 => simpa [encode] using DecodesTo.xor (opcodeField_format1 0x7 rd rs1 rs2)
  | addi rd n =>
    simpa [encode, imm9Field_format2 _ rd h] using DecodesTo.addi (opcodeField_format2 0x2 rd n)
  | subi rd n =>
    simpa [encode, imm9Field_format2 _ rd h] using DecodesTo.subi (opcodeField_format2 0x4 rd n)
  | loadi rd n =>
    simpa [encode, imm9Field_format2 _ rd h] using DecodesTo.loadi (opcodeField_format2 0xA rd n)
  | load rd rs n =>
    simpa [encode, off6Field_format3 _ rd rs h] using
      DecodesTo.load (opcodeField_format3 0x8 rd rs n)
  | store rd rs n =>
    simpa [encode, off6Field_format3 _ rd rs h] using
      DecodesTo.store (opcodeField_format3 0x9 rd rs n)
  | branch n =>
    simpa [encode, off12Field_format4 _ h] using DecodesTo.branch (opcodeField_format4 0xB n)
  | beq n =>
    simpa [encode, off12Field_format4 _ h] using DecodesTo.beq (opcodeField_format4 0xC n)
  | bne n =>
    simpa [encode, off12Field_format4 _ h] using DecodesTo.bne (opcodeField_format4 0xD n)
  | blt n =>
    simpa [encode, off12Field_format4 _ h] using DecodesTo.blt (opcodeField_format4 0xE n)

/-- Settles O5: the encoder's word decodes to its instruction, and `decode` answers nothing else. -/
theorem decodeOfEncodeIsTheInstruction : Obligations.DecodeOfEncodeIsTheInstruction :=
  fun _ h => (decodesTo_encode h).decode_eq

/-! ### Encode of decode -/

theorem DecodesTo.wellFormed {w : Word} {i : Instr} (h : DecodesTo w i) : i.wellFormed = true := by
  cases h with
  | addi | subi | loadi => exact fitsImm9_imm9Field w
  | load | store => exact fitsOff6_off6Field w
  | branch | beq | bne | blt => exact fitsOff12_off12Field w
  | _ => rfl

/-- R192: encoding what a word decodes to sets its unused bits to zero. -/
theorem DecodesTo.encode_eq {w : Word} {i : Instr} (h : DecodesTo w i) :
    encode i = canonical w := by
  unfold canonical
  rw [h.decode_eq]
  cases h with
  | nop h | halt h => exact format0_of_opcodeField h
  | add h | sub h | and h | or h | xor h => exact format1_of_opcodeField h
  | addi h | subi h | loadi h => exact format2_of_opcodeField h
  | load h | store h => exact format3_of_opcodeField h
  | branch h | beq h | bne h | blt h => exact format4_of_opcodeField h

/-- Settles O6: the fields of a word fit, and a format puts them back in their places. -/
theorem encodeOfDecodeIsTheCanonicalWord : Obligations.EncodeOfDecodeIsTheCanonicalWord :=
  fun w => ⟨(decodesTo_decode w).wellFormed, (decodesTo_decode w).encode_eq⟩

/-! ### The decoding algorithm -/

/-- Settles O2: the fields as numbers, and one way to decode for each opcode. -/
theorem decodingAlgorithm : Obligations.DecodingAlgorithm :=
  ⟨fun w => ⟨opcodeField_toNat w, regField_val w 9, regField_val w 6, regField_val w 3⟩,
    fun _ => ⟨immWord_toInt _, immWord_toInt _, immWord_toInt _⟩,
    fun _ => ⟨fun h => (DecodesTo.nop h).decode_eq, fun h => (DecodesTo.add h).decode_eq,
      fun h => (DecodesTo.addi h).decode_eq, fun h => (DecodesTo.sub h).decode_eq,
      fun h => (DecodesTo.subi h).decode_eq, fun h => (DecodesTo.and h).decode_eq,
      fun h => (DecodesTo.or h).decode_eq, fun h => (DecodesTo.xor h).decode_eq,
      fun h => (DecodesTo.load h).decode_eq, fun h => (DecodesTo.store h).decode_eq,
      fun h => (DecodesTo.loadi h).decode_eq, fun h => (DecodesTo.branch h).decode_eq,
      fun h => (DecodesTo.beq h).decode_eq, fun h => (DecodesTo.bne h).decode_eq,
      fun h => (DecodesTo.blt h).decode_eq, fun h => (DecodesTo.halt h).decode_eq⟩⟩

/-! ### The immediates (R189) -/

theorem imm9Field_of_decode {w : Word} {rd : Reg} {n : Int}
    (h : decode w = .addi rd n ∨ decode w = .subi rd n ∨ decode w = .loadi rd n) :
    n = imm9Field w := by
  obtain h | h | h := h <;> cases decodesTo_iff.2 h <;> rfl

theorem off6Field_of_decode {w : Word} {rd rs : Reg} {n : Int}
    (h : decode w = .load rd rs n ∨ decode w = .store rd rs n) : n = off6Field w := by
  obtain h | h := h <;> cases decodesTo_iff.2 h <;> rfl

theorem off12Field_of_decode {w : Word} {n : Int}
    (h : decode w = .branch n ∨ decode w = .beq n ∨ decode w = .bne n ∨ decode w = .blt n) :
    n = off12Field w := by
  obtain h | h | h | h := h <;> cases decodesTo_iff.2 h <;> rfl

/-- Settles O3: the immediate is the field's number, which lies in the field's range. -/
theorem immediatesAreSignExtended : Obligations.ImmediatesAreSignExtended := by
  intro w rd rs n
  refine ⟨fun h => ?_, fun h => ?_, fun h => ?_⟩
  · obtain rfl := imm9Field_of_decode h
    obtain ⟨hlow, hhigh⟩ := of_decide_eq_true (fitsImm9_imm9Field w)
    exact ⟨hlow, hhigh, immWord_lowField w 8⟩
  · obtain rfl := off6Field_of_decode h
    obtain ⟨hlow, hhigh⟩ := of_decide_eq_true (fitsOff6_off6Field w)
    exact ⟨hlow, hhigh, immWord_lowField w 5⟩
  · obtain rfl := off12Field_of_decode h
    obtain ⟨hlow, hhigh⟩ := of_decide_eq_true (fitsOff12_off12Field w)
    exact ⟨hlow, hhigh, immWord_lowField w 11⟩

/-! ### The unused bits (R192) -/

theorem format1_and_unused (op : BitVec 4) (rd rs1 rs2 : Reg) :
    format1 op rd rs1 rs2 &&& 0x0007#16 = 0#16 := by
  apply BitVec.eq_of_toNat_eq
  have hmod : (format1 op rd rs1 rs2 &&& 0x0007#16).toNat = (format1 op rd rs1 rs2).toNat % 2 ^ 3 :=
    Nat.and_two_pow_sub_one_eq_mod _ 3
  rw [hmod, format1_toNat, BitVec.toNat_ofNat]
  omega

/-- Settles O4: the decoder reads the opcode and, in Format 1, three register fields, and no unused
bit lies in one of them. -/
theorem unusedBitsAreIgnored : Obligations.UnusedBitsAreIgnored := by
  refine ⟨fun w u h => ?_, fun w u h => ?_, rfl, rfl, fun rd rs1 rs2 =>
    ⟨format1_and_unused .., format1_and_unused .., format1_and_unused .., format1_and_unused ..,
      format1_and_unused ..⟩⟩
  · have hop : opcodeField ((w &&& 0xF000#16) ||| (u &&& 0x0FFF#16)) = opcodeField w :=
      opcodeField_replace (m := 0xF000#16) rfl
    obtain h | h := h
    · rw [(DecodesTo.nop h).decode_eq, (DecodesTo.nop (hop.trans h)).decode_eq]
    · rw [(DecodesTo.halt h).decode_eq, (DecodesTo.halt (hop.trans h)).decode_eq]
  · have hop : opcodeField ((w &&& 0xFFF8#16) ||| (u &&& 0x0007#16)) = opcodeField w :=
      opcodeField_replace (m := 0xFFF8#16) rfl
    have h9 : regField ((w &&& 0xFFF8#16) ||| (u &&& 0x0007#16)) 9 = regField w 9 :=
      regField_replace (m := 0xFFF8#16) rfl
    have h6 : regField ((w &&& 0xFFF8#16) ||| (u &&& 0x0007#16)) 6 = regField w 6 :=
      regField_replace (m := 0xFFF8#16) rfl
    have h3 : regField ((w &&& 0xFFF8#16) ||| (u &&& 0x0007#16)) 3 = regField w 3 :=
      regField_replace (m := 0xFFF8#16) rfl
    obtain h | h | h | h | h := h
    · simp only [(DecodesTo.add h).decode_eq, (DecodesTo.add (hop.trans h)).decode_eq, h9, h6, h3]
    · simp only [(DecodesTo.sub h).decode_eq, (DecodesTo.sub (hop.trans h)).decode_eq, h9, h6, h3]
    · simp only [(DecodesTo.and h).decode_eq, (DecodesTo.and (hop.trans h)).decode_eq, h9, h6, h3]
    · simp only [(DecodesTo.or h).decode_eq, (DecodesTo.or (hop.trans h)).decode_eq, h9, h6, h3]
    · simp only [(DecodesTo.xor h).decode_eq, (DecodesTo.xor (hop.trans h)).decode_eq, h9, h6, h3]

end Sys2Proof

/-! ## A running machine goes on or faults (R193, R282, R337) -/

namespace Sys2Proof.Machine

/-- A LOAD stops with the fault its read meets (R241). -/
theorem exec_load_of_memRead_error {rd rs : Reg} {off : Int} {s : State} {f : Fault}
    (h : memRead s (effectiveAddress s rs off) = .error f) :
    exec (.load rd rs off) s = .fault f := by simp only [exec, execLoad, h, raiseFault]

/-- A STORE stops with the fault its write meets (R242). -/
theorem exec_store_of_memWrite_error {rd rs : Reg} {off : Int} {s : State} {f : Fault}
    (h : memWrite s (effectiveAddress s rs off) (readReg s rd) = .error f) :
    exec (.store rd rs off) s = .fault f := by simp only [exec, execStore, h, raiseFault]

/-- Only LOAD and STORE have anything that can stop them (R302). -/
theorem exec_next_or_fault (i : Instr) (s : State) :
    (∃ t, exec i s = .next t) ∨ ∃ f, exec i s = .fault f := by
  cases i with
  | load rd rs off =>
    cases h : memRead s (effectiveAddress s rs off) with
    | error f => exact .inr ⟨f, exec_load_of_memRead_error h⟩
    | ok p => exact .inl ⟨_, exec_load_of_memRead h⟩
  | store rd rs off =>
    cases h : memWrite s (effectiveAddress s rs off) (readReg s rd) with
    | error f => exact .inr ⟨f, exec_store_of_memWrite_error h⟩
    | ok t => exact .inl ⟨t, exec_store_of_memWrite h⟩
  | _ => exact .inl ⟨_, rfl⟩

theorem exec_ne_refused (i : Instr) (s : State) (r : Refusal) : exec i s ≠ .refused r := by
  obtain ⟨t, h⟩ | ⟨f, h⟩ := exec_next_or_fault i s <;> rw [h] <;> nofun

/-- Settles O12: the fetch phase of a running machine faults or hands an instruction to `exec`. -/
theorem runningMachineGoesOnOrFaults : Obligations.RunningMachineGoesOnOrFaults := by
  refine ⟨exec_ne_refused, fun s hrun => ?_, fun s t h => ?_⟩
  · cases hfetch : fetchRead s s.pc with
    | error f => exact .inr ⟨f, step_of_fetchRead_error hrun hfetch⟩
    | ok w =>
      obtain ⟨hpc, -⟩ := fetchRead_ok hfetch
      rw [step_of_fetch hrun hpc]
      exact exec_next_or_fault _ _
  · obtain ⟨hrun, -, -⟩ := step_next h
    exact hrun

end Sys2Proof.Machine

/-! ## The assembler (30_encoding.md R194 to R202) -/

namespace Sys2Proof.Machine.Asm

/-! ### What is translated has an encoding -/

theorem translate_wellFormed {labels : List (List Char × Nat)} {addr : Nat} {m : Mnemonic}
    {ops : List Operand} {i : Instr} (h : translate labels addr m ops = .ok i) :
    i.wellFormed = true := by
  unfold translate at h
  split at h
  -- The arms of `translate` in order: NOP to XOR, then those that test an immediate, then the rest.
  case h_1 | h_2 | h_3 | h_4 | h_5 | h_6 | h_7 =>
    cases h
    rfl
  case h_8 | h_9 =>
    obtain ⟨-, rfl, hfits⟩ := sameRegister_eq_ok.1 h
    exact hfits
  case h_10 | h_11 | h_12 =>
    obtain ⟨rfl, hfits⟩ := inRange_eq_ok.1 h
    exact hfits
  case h_13 | h_14 | h_15 | h_16 | h_17 =>
    obtain ⟨n, -, hrange⟩ := bind_eq_ok.1 h
    obtain ⟨rfl, hfits⟩ := inRange_eq_ok.1 hrange
    exact hfits
  case h_18 => cases h

/-- Settles O58: an immediate is tested against its field before the instruction is answered. -/
theorem assembledInstructionsDecodeBack : Obligations.AssembledInstructionsDecodeBack :=
  fun _ _ _ _ _ h =>
    ⟨translate_wellFormed h, decodeOfEncodeIsTheInstruction _ (translate_wellFormed h)⟩

/-! ### Branches (R198, R262) -/

/-- The spelling of a branch and the instruction it makes of an offset (R195, R197). -/
inductive BranchMnemonic : Mnemonic → (Int → Instr) → Prop
  | branch : BranchMnemonic .BRANCH .branch
  | b : BranchMnemonic .B .branch
  | beq : BranchMnemonic .BEQ .beq
  | bne : BranchMnemonic .BNE .bne
  | blt : BranchMnemonic .BLT .blt

theorem branchMnemonic_of_eq {m : Mnemonic}
    (h : m = .BRANCH ∨ m = .B ∨ m = .BEQ ∨ m = .BNE ∨ m = .BLT) : ∃ mk, BranchMnemonic m mk := by
  obtain rfl | rfl | rfl | rfl | rfl := h
  exacts [⟨_, .branch⟩, ⟨_, .b⟩, ⟨_, .beq⟩, ⟨_, .bne⟩, ⟨_, .blt⟩]

theorem BranchMnemonic.translate_eq {m : Mnemonic} {mk : Int → Instr} (hm : BranchMnemonic m mk)
    (labels : List (List Char × Nat)) (addr : Nat) (t : Operand) :
    translate labels addr m [t] = (branchOffset labels addr t).bind fun n => inRange (mk n) := by
  cases hm <;> rfl

theorem BranchMnemonic.wellFormed {m : Mnemonic} {mk : Int → Instr} (hm : BranchMnemonic m mk)
    (n : Int) : (mk n).wellFormed = true ↔ -2048 ≤ n ∧ n ≤ 2047 := by
  cases hm <;> exact decide_eq_true_iff

/-- A branch whose operand stands for the distance `d` is translated exactly when `d` is even and
fits (R198, R262, D25). -/
theorem BranchMnemonic.translate_eq_ok {m : Mnemonic} {mk : Int → Instr} (hm : BranchMnemonic m mk)
    {labels : List (List Char × Nat)} {addr : Nat} {t : Operand} {d : Int} {i : Instr}
    (hd : branchOffset labels addr t = branchOffset.evenOffset d) :
    translate labels addr m [t] = .ok i ↔ i = mk d ∧ d % 2 = 0 ∧ -2048 ≤ d ∧ d ≤ 2047 := by
  rw [hm.translate_eq, hd, bind_eq_ok]
  constructor
  · rintro ⟨n, heven, hrange⟩
    obtain ⟨rfl, heven⟩ := evenOffset_eq_ok.1 heven
    obtain ⟨rfl, hfits⟩ := inRange_eq_ok.1 hrange
    exact ⟨rfl, heven, (hm.wellFormed n).1 hfits⟩
  · rintro ⟨rfl, heven, hfits⟩
    exact ⟨d, evenOffset_eq_ok.2 ⟨rfl, heven⟩, inRange_eq_ok.2 ⟨rfl, (hm.wellFormed d).2 hfits⟩⟩

/-- R260: from the address after the branch, the distance to the target leads to the target. -/
theorem branchTarget_distance (a target : Nat) :
    branchTarget (BitVec.ofNat 16 a) ((target : Int) - a) = BitVec.ofNat 16 target := by
  rw [branchTarget, immWord, ← BitVec.ofInt_natCast, ← BitVec.ofInt_add, ← BitVec.ofInt_natCast]
  congr 1
  omega

/-- R263 to R266: a branch that is taken moves PC to its target. -/
theorem branchIf_of_taken {b : Bool} {off : Int} {s : State} {p : Word} (hb : b = true)
    (hp : branchTarget s.pc off = p) : branchIf b off s = .next { s with pc := p } := by
  rw [branchIf_eq, if_pos hb, hp]

/-- Settles O59: a label stands for its distance and a number for itself, and what either stands for
is translated exactly when it is even and fits. -/
theorem branchToALabelReachesIt : Obligations.BranchToALabelReachesIt := by
  refine fun labels addr => ⟨fun l target hl => ?_, fun n => ?_⟩
  · intro d
    have hd : branchOffset labels addr (.label l) = branchOffset.evenOffset d :=
      branchOffset_label addr hl
    refine ⟨fun hfits => ?_, fun hfits m i hm hi => ?_⟩
    · refine ⟨(BranchMnemonic.branch.translate_eq_ok hd).2 ⟨rfl, hfits⟩,
        (BranchMnemonic.b.translate_eq_ok hd).2 ⟨rfl, hfits⟩,
        (BranchMnemonic.beq.translate_eq_ok hd).2 ⟨rfl, hfits⟩,
        (BranchMnemonic.bne.translate_eq_ok hd).2 ⟨rfl, hfits⟩,
        (BranchMnemonic.blt.translate_eq_ok hd).2 ⟨rfl, hfits⟩, fun s hs => ?_⟩
      have hp : branchTarget s.pc d = BitVec.ofNat 16 target := by
        rw [hs]
        exact branchTarget_distance (addr + 2) target
      exact ⟨branchIf_of_taken rfl hp, fun hz => branchIf_of_taken hz hp,
        fun hz => branchIf_of_taken (congrArg Bool.not hz) hp, fun hn => branchIf_of_taken hn hp⟩
    · obtain ⟨mk, hm⟩ := branchMnemonic_of_eq hm
      exact hfits ((hm.translate_eq_ok hd).1 hi).2
  · have hn := branchOffset_number labels addr n
    refine ⟨fun hfits => ?_, fun hfits m i hm hi => ?_⟩
    · exact ⟨(BranchMnemonic.branch.translate_eq_ok hn).2 ⟨rfl, hfits⟩,
        (BranchMnemonic.b.translate_eq_ok hn).2 ⟨rfl, hfits⟩,
        (BranchMnemonic.beq.translate_eq_ok hn).2 ⟨rfl, hfits⟩,
        (BranchMnemonic.bne.translate_eq_ok hn).2 ⟨rfl, hfits⟩,
        (BranchMnemonic.blt.translate_eq_ok hn).2 ⟨rfl, hfits⟩⟩
    · obtain ⟨mk, hm⟩ := branchMnemonic_of_eq hm
      exact hfits ((hm.translate_eq_ok hn).1 hi).2

/-! ### Literals (R199) and source registers (R201) -/

section
variable {labels : List (List Char × Nat)} {addr : Nat} {rd rs : Reg} {n : Int} {i : Instr}

theorem translate_loadi_eq_ok : translate labels addr .LOADI [.reg rd, .imm n] = .ok i ↔
    i = .loadi rd n ∧ -256 ≤ n ∧ n ≤ 255 :=
  inRange_eq_ok.trans (and_congr_right' decide_eq_true_iff)

theorem translate_addi_eq_ok : translate labels addr .ADDI [.reg rd, .reg rs, .imm n] = .ok i ↔
    rs = rd ∧ i = .addi rd n ∧ -256 ≤ n ∧ n ≤ 255 :=
  sameRegister_eq_ok.trans (and_congr_right' (and_congr_right' decide_eq_true_iff))

theorem translate_subi_eq_ok : translate labels addr .SUBI [.reg rd, .reg rs, .imm n] = .ok i ↔
    rs = rd ∧ i = .subi rd n ∧ -256 ≤ n ∧ n ≤ 255 :=
  sameRegister_eq_ok.trans (and_congr_right' (and_congr_right' decide_eq_true_iff))

theorem translate_load_eq_ok : translate labels addr .LOAD [.reg rd, .mem rs n] = .ok i ↔
    i = .load rd rs n ∧ -32 ≤ n ∧ n ≤ 31 :=
  inRange_eq_ok.trans (and_congr_right' decide_eq_true_iff)

theorem translate_store_eq_ok : translate labels addr .STORE [.reg rd, .mem rs n] = .ok i ↔
    i = .store rd rs n ∧ -32 ≤ n ∧ n ≤ 31 :=
  inRange_eq_ok.trans (and_congr_right' decide_eq_true_iff)

end

/-- R199: a literal is encoded mod 512. -/
theorem format2_emod (op : BitVec 4) (rd : Reg) (n : Int) :
    ((format2 op rd n).toNat : Int) % 512 = n % 512 := by
  rw [format2_toNat, BitVec.toNat_ofInt]
  omega

/-- Settles O60: each of the five is translated exactly when its literal fits and, for ADDI and
SUBI, the source is the destination. -/
theorem literalsAndSourceRegisters : Obligations.LiteralsAndSourceRegisters := by
  refine ⟨⟨rfl, rfl, rfl⟩, fun labels addr rd rs n =>
    ⟨fun hfits => ?_, fun hfits i => ⟨fun h => ?_, fun h => ?_, fun h => ?_⟩, fun hfits => ?_,
      fun hfits i => ⟨fun h => ?_, fun h => ?_⟩, fun hne i => ⟨fun h => ?_, fun h => ?_⟩⟩⟩
  · exact ⟨translate_loadi_eq_ok.2 ⟨rfl, hfits⟩, translate_addi_eq_ok.2 ⟨rfl, rfl, hfits⟩,
      translate_subi_eq_ok.2 ⟨rfl, rfl, hfits⟩, format2_emod .., format2_emod .., format2_emod ..⟩
  · exact hfits (translate_loadi_eq_ok.1 h).2
  · obtain ⟨-, -, hrange⟩ := translate_addi_eq_ok.1 h
    exact hfits hrange
  · obtain ⟨-, -, hrange⟩ := translate_subi_eq_ok.1 h
    exact hfits hrange
  · exact ⟨translate_load_eq_ok.2 ⟨rfl, hfits⟩, translate_store_eq_ok.2 ⟨rfl, hfits⟩⟩
  · exact hfits (translate_load_eq_ok.1 h).2
  · exact hfits (translate_store_eq_ok.1 h).2
  · exact hne (translate_addi_eq_ok.1 h).1
  · exact hne (translate_subi_eq_ok.1 h).1

end Sys2Proof.Machine.Asm

/-! ## Addition and subtraction (40_arithmetic.md) -/

namespace Sys2Proof.Machine

/-! ### An instruction that writes a result and the flags it decides (R133) -/

theorem writeResult_writesOnlyRegAndFlags (s : State) (rd : Reg) (r : Word) (f : Flags) :
    WritesOnlyRegAndFlags rd s (writeResult s rd r f) :=
  ⟨⟨fun _ hi => readReg_writeResult_other s r f hi, rfl, ⟨rfl, rfl, rfl, rfl⟩,
    readByte_writeResult s rd r f, rfl, rfl⟩, rfl, rfl, rfl, rfl, rfl⟩

theorem flagsFromResult_assignZN (f : Flags) (r : Word) : FlagsFromResult r f (assignZN f r) :=
  ⟨zeroOf_eq_true r, rfl, rfl, rfl, rfl⟩

/-- What R212 to R214 say of an instruction that writes a result and assigns Z and N from it. -/
theorem exec_result_spec {i : Instr} {s : State} {rd : Reg} {r : Word}
    (h : exec i s = .next (writeResult s rd r (assignZN s.flags r))) :
    ∃ t, exec i s = .next t ∧ readReg t rd = r ∧ FlagsFromResult r s.flags t.flags ∧
      WritesOnlyRegAndFlags rd s t :=
  ⟨_, h, readReg_writeResult_self .., flagsFromResult_assignZN ..,
    writeResult_writesOnlyRegAndFlags ..⟩

theorem readReg_of_exec_result {i : Instr} {s t : State} {rd : Reg} {r : Word} {f : Flags}
    (hi : exec i s = .next (writeResult s rd r f)) (h : exec i s = .next t) : readReg t rd = r := by
  cases hi.symm.trans h
  exact readReg_writeResult_self s rd r f

/-! ### The four instructions (R211 to R214) -/

theorem exec_add (rd rs1 rs2 : Reg) (s : State) :
    exec (.add rd rs1 rs2) s =
      .next (writeResult s rd (readReg s rs1 + readReg s rs2)
        (assignZNC s.flags (readReg s rs1) (readReg s rs2))) := by
  rw [← sumOf_eq_add]
  rfl

theorem exec_addi (rd : Reg) (imm : Int) (s : State) :
    exec (.addi rd imm) s =
      .next (writeResult s rd (readReg s rd + BitVec.ofInt 16 imm)
        (assignZN s.flags (readReg s rd + BitVec.ofInt 16 imm))) := by
  rw [← sumOf_eq_add]
  rfl

theorem exec_sub (rd rs1 rs2 : Reg) (s : State) :
    exec (.sub rd rs1 rs2) s =
      .next (writeResult s rd (readReg s rs1 - readReg s rs2)
        (assignZN s.flags (readReg s rs1 - readReg s rs2))) := rfl

theorem exec_subi (rd : Reg) (imm : Int) (s : State) :
    exec (.subi rd imm) s =
      .next (writeResult s rd (readReg s rd - BitVec.ofInt 16 imm)
        (assignZN s.flags (readReg s rd - BitVec.ofInt 16 imm))) := rfl

/-- Settles O13: the flags of `assignZNC`, and the frame of `writeResult`. -/
theorem addRegisters : Obligations.AddRegisters := by
  refine ⟨fun _ h => (DecodesTo.add h).decode_eq, fun rd rs1 rs2 s =>
    ⟨_, exec_add rd rs1 rs2 s, readReg_writeResult_self .., ?_, ?_, ?_, rfl, rfl,
      writeResult_writesOnlyRegAndFlags ..⟩⟩
  · rw [writeResult_flags, assignZNC_z, zeroOf_eq_true, sumOf_eq_add]
  · rw [writeResult_flags, assignZNC_n, sumOf_eq_add, negativeOf]
  · rw [writeResult_flags, assignZNC_c, carryOf_eq_true]

/-- Settles O14: ADDI writes its sum as `exec_result_spec` says. -/
theorem addImmediate : Obligations.AddImmediate :=
  ⟨fun _ h => (DecodesTo.addi h).decode_eq, fun rd imm s => exec_result_spec (exec_addi rd imm s)⟩

/-- Settles O15: SUB writes its difference as `exec_result_spec` says. -/
theorem subtractRegisters : Obligations.SubtractRegisters :=
  ⟨fun _ h => (DecodesTo.sub h).decode_eq,
    fun rd rs1 rs2 s => exec_result_spec (exec_sub rd rs1 rs2 s)⟩

/-- Settles O16: SUBI writes its difference as `exec_result_spec` says. -/
theorem subtractImmediate : Obligations.SubtractImmediate :=
  ⟨fun _ h => (DecodesTo.subi h).decode_eq, fun rd imm s => exec_result_spec (exec_subi rd imm s)⟩

/-! ### Results modulo 2^16 (R210) -/

theorem toNat_sub_emod (x y : Word) :
    ((x - y).toNat : Int) = (x.toNat - y.toNat : Int) % 65536 := by
  rw [BitVec.toNat_sub]
  omega

theorem toNat_add_ofInt (x : Word) (n : Int) :
    ((x + BitVec.ofInt 16 n).toNat : Int) = (x.toNat + n) % 65536 := by
  rw [BitVec.toNat_add, BitVec.toNat_ofInt]
  omega

theorem toInt_add_ofInt (x : Word) (n : Int) :
    (x + BitVec.ofInt 16 n).toInt = (x.toInt + n).bmod 65536 := by
  rw [BitVec.toInt_add, BitVec.toInt_ofInt, Int.add_bmod_bmod]

/-- R214: subtracting the immediate `n` is adding the immediate `-n`. -/
theorem sub_ofInt_eq_add_ofInt_neg (x : Word) (n : Int) :
    x - BitVec.ofInt 16 n = x + BitVec.ofInt 16 (-n) := by
  rw [BitVec.ofInt_neg, sub_eq_add_neg]

/-- R210: subtraction is addition of the complement and 1. -/
theorem sub_eq_add_not_add_one (x y : Word) : x - y = x + ~~~y + 1#16 := by
  rw [BitVec.sub_eq_add_neg, BitVec.neg_eq_not_add, BitVec.add_assoc]

/-- Settles O20: each destination holds a sum or a difference of words, whose two readings are the
exact value reduced. -/
theorem arithmeticIsModulo : Obligations.ArithmeticIsModulo := by
  intro rd rs1 rs2 imm s t
  refine ⟨fun h => ?_, fun h => ?_, fun h => ?_, fun h => ?_⟩
  · rw [readReg_of_exec_result (exec_add ..) h]
    exact ⟨BitVec.toNat_add .., BitVec.toInt_add ..⟩
  · rw [readReg_of_exec_result (exec_addi ..) h]
    exact ⟨toNat_add_ofInt .., toInt_add_ofInt ..⟩
  · rw [readReg_of_exec_result (exec_sub ..) h]
    exact ⟨toNat_sub_emod .., BitVec.toInt_sub, sub_eq_add_not_add_one ..⟩
  · rw [readReg_of_exec_result (exec_subi ..) h, sub_ofInt_eq_add_ofInt_neg]
    exact ⟨toNat_add_ofInt .., toInt_add_ofInt ..⟩

/-- Settles O21: both write the same result and assign the same flags from it. -/
theorem subiIsAddiOfTheNegation : Obligations.SubiIsAddiOfTheNegation := by
  intro rd n s _ _
  rw [exec_subi, exec_addi, sub_ofInt_eq_add_ofInt_neg]

/-! ### A SUB and the branch that tests it (R213, R264 to R266) -/

/-- A branch whose flag says `p` is taken exactly when `p` holds. -/
theorem branchIf_of_iff {b : Bool} {p : Prop} [Decidable p] (hb : b = true ↔ p) (off : Int)
    (s : State) :
    branchIf b off s =
      .next (if p then { s with pc := s.pc + BitVec.ofInt 16 off } else s) :=
  congrArg Host.Outcome.next (if_congr hb rfl rfl)

theorem negativeOf_eq_true (r : Word) : negativeOf r = true ↔ r.toInt < 0 := by
  rw [negativeOf, ← decide_eq_true_iff (p := r.toInt < 0), ← BitVec.msb_eq_toInt,
    BitVec.msb_eq_getLsbD_last]

/-- While the exact difference fits in 16 bits, its sign is the sign of the reduced one. -/
theorem toInt_sub_neg_of_fits {x y : Word}
    (h : -32768 ≤ x.toInt - y.toInt ∧ x.toInt - y.toInt ≤ 32767) :
    (x - y).toInt < 0 ↔ x.toInt < y.toInt := by
  rw [BitVec.toInt_sub, Int.bmod_def]
  omega

/-- Where the exact difference does not fit, reducing it turns its sign round. -/
theorem toInt_sub_neg_of_not_fits {x y : Word}
    (h : x.toInt - y.toInt < -32768 ∨ 32767 < x.toInt - y.toInt) :
    (x - y).toInt < 0 ↔ ¬ x.toInt < y.toInt := by
  have hx := x.two_mul_toInt_lt
  have hx' := x.le_two_mul_toInt
  have hy := y.two_mul_toInt_lt
  have hy' := y.le_two_mul_toInt
  rw [BitVec.toInt_sub, Int.bmod_def]
  omega

section
variable {rd rs1 rs2 : Reg} {s t : State} (h : exec (.sub rd rs1 rs2) s = .next t)
include h

theorem flags_z_of_exec_sub : t.flags.z = true ↔ readReg s rs1 = readReg s rs2 := by
  cases (exec_sub ..).symm.trans h
  rw [writeResult_flags, assignZN_z, zeroOf_eq_true]
  exact sub_eq_zero

theorem flags_n_of_exec_sub : t.flags.n = true ↔ (readReg s rs1 - readReg s rs2).toInt < 0 := by
  cases (exec_sub ..).symm.trans h
  rw [writeResult_flags, assignZN_n, negativeOf_eq_true]

end

/-- Settles O36: the difference is zero exactly when the sources are equal. -/
theorem subThenBranchTestsEquality : Obligations.SubThenBranchTestsEquality := by
  intro rd rs1 rs2 off s t h
  have hz := flags_z_of_exec_sub h
  have hnz : takenNe t.flags = true ↔ readReg s rs1 ≠ readReg s rs2 := by
    rw [takenNe, Bool.not_eq_true', ← Bool.not_eq_true, hz]
  refine ⟨fun heq => ⟨(branchIf_of_iff hz off t).trans ?_, (branchIf_of_iff hnz off t).trans ?_⟩,
    fun hne => ⟨(branchIf_of_iff hz off t).trans ?_, (branchIf_of_iff hnz off t).trans ?_⟩⟩
  · rw [if_pos heq]
  · rw [if_neg (not_not_intro heq)]
  · rw [if_neg hne]
  · rw [if_pos hne]

/-- Settles O37: BLT reads the sign of the reduced difference, which is the exact one's or its
opposite. -/
theorem subThenBltComparesSigned : Obligations.SubThenBltComparesSigned := by
  intro rd rs1 rs2 off s t h x y
  have hn := flags_n_of_exec_sub h
  refine ⟨fun hfits => ?_, fun hout => ?_⟩
  · exact branchIf_of_iff (hn.trans (toInt_sub_neg_of_fits hfits)) off t
  · rw [← ite_not]
    exact branchIf_of_iff (hn.trans (toInt_sub_neg_of_not_fits hout)) off t

end Sys2Proof.Machine

/-! ## AND, OR, XOR (41_logical.md) -/

namespace Sys2Proof.Machine

theorem exec_and (rd rs1 rs2 : Reg) (s : State) :
    exec (.and rd rs1 rs2) s =
      .next (writeResult s rd (readReg s rs1 &&& readReg s rs2)
        (assignZN s.flags (readReg s rs1 &&& readReg s rs2))) := rfl

theorem exec_or (rd rs1 rs2 : Reg) (s : State) :
    exec (.or rd rs1 rs2) s =
      .next (writeResult s rd (readReg s rs1 ||| readReg s rs2)
        (assignZN s.flags (readReg s rs1 ||| readReg s rs2))) := rfl

theorem exec_xor (rd rs1 rs2 : Reg) (s : State) :
    exec (.xor rd rs1 rs2) s =
      .next (writeResult s rd (readReg s rs1 ^^^ readReg s rs2)
        (assignZN s.flags (readReg s rs1 ^^^ readReg s rs2))) := rfl

/-- R230 to R233: where bit `k` of the result says `bit k`, so does bit `k` of the destination
afterwards; the rest is as for any result. -/
theorem exec_bitwise_spec {i : Instr} {s : State} {rd : Reg} {r : Word} {bit : Nat → Prop}
    (h : exec i s = .next (writeResult s rd r (assignZN s.flags r)))
    (hbit : ∀ k, r.getLsbD k = true ↔ bit k) :
    ∃ t, exec i s = .next t ∧ (∀ k < 16, (readReg t rd).getLsbD k = true ↔ bit k) ∧
      FlagsFromResult (readReg t rd) s.flags t.flags ∧ WritesOnlyRegAndFlags rd s t := by
  obtain ⟨t, hnext, rfl, hflags, hframe⟩ := exec_result_spec h
  exact ⟨t, hnext, fun k _ => hbit k, hflags, hframe⟩

/-- Settles O17: AND writes its result as `exec_bitwise_spec` says. -/
theorem bitwiseAnd : Obligations.BitwiseAnd :=
  ⟨fun _ h => (DecodesTo.and h).decode_eq, fun rd rs1 rs2 s =>
    exec_bitwise_spec (exec_and rd rs1 rs2 s) fun k => by rw [BitVec.getLsbD_and, Bool.and_eq_true]⟩

/-- Settles O18: OR writes its result as `exec_bitwise_spec` says. -/
theorem bitwiseOr : Obligations.BitwiseOr :=
  ⟨fun _ h => (DecodesTo.or h).decode_eq, fun rd rs1 rs2 s =>
    exec_bitwise_spec (exec_or rd rs1 rs2 s) fun k => by rw [BitVec.getLsbD_or, Bool.or_eq_true]⟩

/-- Settles O19: XOR writes its result as `exec_bitwise_spec` says. -/
theorem bitwiseXor : Obligations.BitwiseXor :=
  ⟨fun _ h => (DecodesTo.xor h).decode_eq, fun rd rs1 rs2 s =>
    exec_bitwise_spec (exec_xor rd rs1 rs2 s) fun k => by rw [BitVec.getLsbD_xor, bne_iff_ne]⟩

end Sys2Proof.Machine

/-! ## LOAD, STORE, LOADI (42_memory_instructions.md) -/

namespace Sys2Proof.Machine

/-! ### The effective address (R240) -/

/-- Settles O22: the address is a sum of words, and the base register is changed only as a
destination. (`effectiveAddress` is the model's own function.) -/
theorem effectiveAddressIsBasePlusOffset : Obligations.EffectiveAddress := by
  refine ⟨fun s rs off => ⟨toNat_add_ofInt (readReg s rs) off, BitVec.add_zero _⟩,
    fun rd rs off s t => ⟨fun h hne => ?_, fun h => ?_⟩⟩
  · exact exec_readReg_of_ne_destination h fun hd => hne (Option.some.inj hd).symm
  · exact exec_readReg_of_ne_destination h nofun

/-! ### What a data access answers, address by address (R158, R159, R310 to R317) -/

/-- Every other device read has no meaning (R317). -/
theorem ioRead_undefined (s : State) {a : Word} (hin : a ≠ 0xF001#16) (hval : a ≠ 0xF003#16) :
    ioRead s a = .error (.ioUndefined a none) := by
  cases h : ioRead s a with
  | ok p =>
    obtain ⟨ha, -⟩ | ⟨ha, -⟩ := ioRead_ok h
    · exact absurd ha hin
    · exact absurd ha hval
  | error f =>
    obtain ⟨rfl, -⟩ := ioRead_error h
    rfl

/-- The writes `EventAllowed` lists are recorded (R311). -/
theorem ioWrite_allowed (s : State) {a v : Word} (ha : EventAllowed (.write a v)) :
    ioWrite s a v = .ok (recordEvent s (.write a v)) := by
  cases h : ioWrite s a v with
  | ok t =>
    obtain ⟨rfl, -⟩ := ioWrite_ok h
    rfl
  | error f =>
    obtain ⟨-, hnot⟩ := ioWrite_error h
    exact absurd ha hnot

/-- Every other device write has no meaning (R317). -/
theorem ioWrite_undefined (s : State) {a v : Word} (ha : ¬ EventAllowed (.write a v)) :
    ioWrite s a v = .error (.ioUndefined a (some v)) := by
  cases h : ioWrite s a v with
  | ok t =>
    obtain ⟨-, hallowed⟩ := ioWrite_ok h
    exact absurd hallowed ha
  | error f =>
    obtain ⟨rfl, -⟩ := ioWrite_error h
    rfl

/-- A write a rule defines goes to a device register (R311). -/
theorem EventAllowed.inWindow {a v : Word} (h : EventAllowed (.write a v)) : InWindow a := by
  obtain rfl | ⟨rfl, -⟩ | rfl := h <;> decide

section

variable (s : State) {a : Word}

theorem memRead_consoleIn (ha : a = 0xF001#16) :
    memRead s a = .ok (consoleElement s s.consoleReads,
      { recordEvent s (.read 0xF001#16 (consoleElement s s.consoleReads)) with
        consoleReads := s.consoleReads + 1 }) := by
  subst ha
  rfl

theorem memRead_timerVal (ha : a = 0xF003#16) :
    memRead s a = .ok (timerElement s s.timerReads,
      { recordEvent s (.read 0xF003#16 (timerElement s s.timerReads)) with
        timerReads := s.timerReads + 1 }) := by
  subst ha
  rfl

theorem memRead_last (ha : a = 0xFFFF#16) : memRead s a = .error (.addressWrap a) := by
  subst ha
  rfl

theorem memRead_belowWindow (ha : a = 0xEFFF#16) : memRead s a = .error (.ioStraddle a) := by
  subst ha
  rfl

theorem memRead_undefined (hwin : InWindow a) (hin : a ≠ 0xF001#16) (hval : a ≠ 0xF003#16) :
    memRead s a = .error (.ioUndefined a none) :=
  (memRead_window hwin).trans (ioRead_undefined s hin hval)

theorem memWrite_last (v : Word) (ha : a = 0xFFFF#16) :
    memWrite s a v = .error (.addressWrap a) := by
  subst ha
  rfl

theorem memWrite_belowWindow (v : Word) (ha : a = 0xEFFF#16) :
    memWrite s a v = .error (.ioStraddle a) := by
  subst ha
  rfl

theorem memWrite_allowed {v : Word} (h : EventAllowed (.write a v)) :
    memWrite s a v = .ok (recordEvent s (.write a v)) :=
  (memWrite_window v h.inWindow).trans (ioWrite_allowed s h)

theorem memWrite_undefined {v : Word} (hwin : InWindow a) (h : ¬ EventAllowed (.write a v)) :
    memWrite s a v = .error (.ioUndefined a (some v)) :=
  (memWrite_window v hwin).trans (ioWrite_undefined s h)

end

/-! ### The frames (R132, R241 to R243) -/

theorem writeReg_writesOnlyRegAndFlags (s : State) (rd : Reg) (v : Word) :
    WritesOnlyRegAndFlags rd s (writeReg s rd v) :=
  writeResult_writesOnlyRegAndFlags s rd v s.flags

/-- A LOAD that goes on changes its destination and the devices at most. -/
theorem exec_load_frame {rd rs : Reg} {off : Int} {s t : State}
    (h : exec (.load rd rs off) s = .next t) : t.flags = s.flags ∧ RegFrame rd s t := by
  cases exec_next h with
  | load =>
    obtain ⟨hframe, -⟩ := writeReg_writesOnlyRegAndFlags _ rd _
    exact ⟨rfl, hframe⟩
  | result _ _ _ _ _ hdata => cases hdata
  | jump _ _ _ _ hdata => cases hdata

/-- A STORE that goes on changes memory and the event record at most. -/
theorem exec_store_frame {rd rs : Reg} {off : Int} {s t : State}
    (h : exec (.store rd rs off) s = .next t) : StoreFrame s t := by
  cases exec_next h with
  | store => exact ⟨fun _ => rfl, rfl, rfl, ⟨rfl, rfl, rfl, rfl⟩, rfl, rfl, rfl, rfl⟩
  | result _ _ _ _ _ hdata => cases hdata
  | jump _ _ _ _ hdata => cases hdata

theorem writeWord_memoryUnchangedBut (s : State) (a v : Word) :
    MemoryUnchangedBut a s (writeWord s a v) :=
  fun _ hlow hhigh => readByte_writeWord_other s a v hlow hhigh

/-! ### The three instructions (R241 to R243) -/

/-- Settles O23: the read of each kind of address, put through `exec`. -/
theorem loadFromMemory : Obligations.LoadFromMemory := by
  refine ⟨fun _ h => (DecodesTo.load h).decode_eq, fun rd rs off s => ?_⟩
  intro ea
  refine ⟨rfl, fun hplain => ?plain, fun hea => ?consoleIn, fun hea => ?timerVal,
    fun hea => ?last, fun hea => ?belowWindow, fun hwin hin hval => ?undefined⟩
  case plain =>
    refine ⟨_, exec_load_of_memRead (memRead_plain hplain), ?_, rfl,
      writeReg_writesOnlyRegAndFlags ..⟩
    rw [readReg_writeReg_self, readWord, wordOfBytes_toNat]
  case consoleIn =>
    have hnext := exec_load_of_memRead (rd := rd) (memRead_consoleIn s hea)
    exact ⟨_, hnext, readReg_writeReg_self .., rfl, rfl, rfl, exec_load_frame hnext⟩
  case timerVal =>
    have hnext := exec_load_of_memRead (rd := rd) (memRead_timerVal s hea)
    exact ⟨_, hnext, readReg_writeReg_self .., rfl, rfl, rfl, exec_load_frame hnext⟩
  case last => exact exec_load_of_memRead_error (memRead_last s hea)
  case belowWindow => exact exec_load_of_memRead_error (memRead_belowWindow s hea)
  case undefined => exact exec_load_of_memRead_error (memRead_undefined s hwin hin hval)

/-- Settles O24: the write of each kind of address, put through `exec`. -/
theorem storeToMemory : Obligations.StoreToMemory := by
  refine ⟨fun _ h => (DecodesTo.store h).decode_eq, fun rd rs off s => ?_⟩
  intro ea
  refine ⟨rfl, fun hplain => ?plain, fun hallowed => ?device, fun hea => ?last,
    fun hea => ?belowWindow, fun hwin hout hval hctrl => ?undefined⟩
  case plain =>
    have hnext := exec_store_of_memWrite (memWrite_plain (s := s) (readReg s rd) hplain)
    refine ⟨_, hnext, ?_, ?_, writeWord_memoryUnchangedBut s ea _, rfl, exec_store_frame hnext⟩
    · rw [readByte_writeWord_low, lowByte_toNat]
    · rw [readByte_writeWord_high, highByte_toNat]
  case device =>
    have hnext := exec_store_of_memWrite (memWrite_allowed s hallowed)
    exact ⟨_, hnext, rfl, readByte_recordEvent s _, exec_store_frame hnext⟩
  case last => exact exec_store_of_memWrite_error (memWrite_last s _ hea)
  case belowWindow => exact exec_store_of_memWrite_error (memWrite_belowWindow s _ hea)
  case undefined =>
    have hnot : ¬ EventAllowed (.write ea (readReg s rd)) := by
      rintro (h | h | h)
      · exact hout h
      · exact hctrl h
      · exact hval h
    exact exec_store_of_memWrite_error (memWrite_undefined s hwin hnot)

/-- Settles O25: LOADI is one register write. -/
theorem loadImmediate : Obligations.LoadImmediate :=
  ⟨fun _ h => (DecodesTo.loadi h).decode_eq, fun rd imm s =>
    ⟨_, rfl, readReg_writeReg_self .., rfl, writeReg_writesOnlyRegAndFlags s rd (immWord imm)⟩⟩

end Sys2Proof.Machine

/-! ## BRANCH, BEQ, BNE, BLT and the program counter (43_control_flow.md) -/

namespace Sys2Proof.Machine

/-! ### PC after an instruction and after a step (R125, R260) -/

/-- An instruction that writes a register is no branch. -/
theorem takenOffset_of_destination {i : Instr} {rd : Reg} (hd : destination i = some rd)
    (f : Flags) : takenOffset f i = none := by
  cases i with
  | branch | beq | bne | blt => cases hd
  | _ => rfl

/-- An instruction that goes on moves PC by the offset it takes, if it takes one. -/
theorem exec_pc {i : Instr} {s t : State} (h : exec i s = .next t) :
    t.pc = (takenOffset s.flags i).elim s.pc (branchTarget s.pc) := by
  cases exec_next h with
  | result _ _ hd => rw [takenOffset_of_destination hd, Option.elim_none, writeResult_pc]
  | sum | load | store | loadi | jump | halt => rfl

/-- Settles O35: the fetch phase moves PC on by 2 and keeps the flags, and the execute phase adds
the offset taken, if any. -/
theorem programCounterAdvance : Obligations.ProgramCounterAdvance := by
  intro s t h
  obtain ⟨-, -, hexec⟩ := step_next h
  rw [exec_pc hexec, afterFetch_flags, afterFetch_pc, readWord]
  cases takenOffset s.flags _ with
  | none => rfl
  | some off => rfl

/-! ### The four instructions (R263 to R266) -/

/-- A branch that is not taken changes nothing. -/
theorem branchIf_of_not_taken {b : Bool} (hb : b = false) (off : Int) (s : State) :
    branchIf b off s = .next s := by
  rw [branchIf_eq, hb, if_neg Bool.false_ne_true]

/-- Settles O31: BRANCH is taken whatever the flags. -/
theorem branchAlways : Obligations.BranchAlways :=
  ⟨fun _ h => (DecodesTo.branch h).decode_eq, fun _ _ => Asm.branchIf_of_taken rfl rfl⟩

/-- Settles O32: BEQ is taken on Z itself. -/
theorem branchIfEqual : Obligations.BranchIfEqual :=
  ⟨fun _ h => (DecodesTo.beq h).decode_eq, fun off s =>
    ⟨fun hz => Asm.branchIf_of_taken hz rfl, fun hz => branchIf_of_not_taken hz off s⟩⟩

/-- Settles O33: BNE is taken on the complement of Z. -/
theorem branchIfNotEqual : Obligations.BranchIfNotEqual :=
  ⟨fun _ h => (DecodesTo.bne h).decode_eq, fun off s =>
    ⟨fun hz => Asm.branchIf_of_taken (congrArg Bool.not hz) rfl,
      fun hz => branchIf_of_not_taken (congrArg Bool.not hz) off s⟩⟩

/-- Settles O34: BLT is taken on N itself. -/
theorem branchIfLessThan : Obligations.BranchIfLessThan :=
  ⟨fun _ h => (DecodesTo.blt h).decode_eq, fun off s =>
    ⟨fun hn => Asm.branchIf_of_taken hn rfl, fun hn => branchIf_of_not_taken hn off s⟩⟩

end Sys2Proof.Machine

/-! ## NOP and HALT (44_special.md) -/

namespace Sys2Proof.Machine

/-- A running machine whose word at PC decodes to `i` executes `i` after the fetch phase. -/
theorem step_of_decode {s : State} {i : Instr} (hrun : Running s) (hpc : Fetchable s.pc)
    (hi : decode (readWord s s.pc) = i) : step s = exec i (afterFetch s (readWord s s.pc)) := by
  rw [step_of_fetch hrun hpc, hi]

/-- A run stays in a state that its own step does not leave. -/
theorem stateAfter_of_standsAfter_self {s : State} (h : standsAfter s (step s) = s) (k : Nat) :
    stateAfter k s = s :=
  stateAfter_induction (P := (· = s)) (fun u hu => by rw [hu, h]) k s rfl

/-- R281: a halted machine stands where it is for any number of steps. -/
theorem stateAfter_of_halted {s : State} (h : s.halted = true) (k : Nat) : stateAfter k s = s :=
  stateAfter_of_standsAfter_self (by rw [step_of_halted h, standsAfter]) k

theorem exec_nop (s : State) : exec .nop s = .next s := rfl

theorem exec_halt (s : State) : exec .halt s = .next { s with halted := true } := rfl

/-- Settles O38: NOP keeps the state that the fetch phase leaves. -/
theorem noOperation : Obligations.NoOperation := by
  refine ⟨fun _ h => (DecodesTo.nop h).decode_eq, exec_nop, fun s hrun hpc hnop => ?_⟩
  rw [step_of_decode hrun hpc hnop, exec_nop, afterFetch, readWord]

/-- Settles O39: HALT sets the run state after the fetch phase, and a halted machine takes no step. -/
theorem haltStopsExecution : Obligations.HaltStopsExecution := by
  refine ⟨fun _ h => (DecodesTo.halt h).decode_eq, exec_halt, fun s hrun hpc hhalt => ?_⟩
  refine ⟨_, ?_, rfl, ⟨rfl, hrun.2⟩, fun k => ?_⟩
  · rw [step_of_decode hrun hpc hhalt, exec_halt, afterFetch, readWord]
  · rw [stateAfter_of_halted rfl k]
    exact ⟨rfl, step_of_halted rfl⟩

end Sys2Proof.Machine

/-! ## The five faults and the state they leave (60_exceptions.md R301, R302) -/

namespace Sys2Proof.Machine

/-! ### A faulted machine (R301) -/

/-- R301: a machine that is marked and not halted answers its fault again. -/
theorem step_of_faultMark {s : State} {f : Fault} (hhalted : s.halted = false)
    (hmark : s.faultMark = some f) : step s = .fault f := by
  simp [step, hhalted, hmark]

theorem halted_of_step_fault {s : State} {f : Fault} (h : step s = .fault f) :
    s.halted = false := by
  refine Bool.eq_false_iff.2 fun hhalted => ?_
  rw [step_of_halted hhalted] at h
  cases h

theorem step_faultedState {s : State} (f : Fault) (h : s.halted = false) :
    step (faultedState s f) = .fault f :=
  step_of_faultMark h (faultedState_faultMark s f)

/-- R301: a faulted machine stands where it is for any number of steps. -/
theorem stateAfter_faultedState {s : State} (f : Fault) (h : s.halted = false) (k : Nat) :
    stateAfter k (faultedState s f) = faultedState s f :=
  stateAfter_of_standsAfter_self (standsAfter_of_step_fault (step_faultedState f h)) k

theorem not_final_faultedState (s : State) (f : Fault) : ¬ Final (faultedState s f) :=
  fun ⟨_, hmark⟩ => Option.some_ne_none f hmark

/-- Settles O10: the machine stands in the marked state, whose own step answers the fault again. -/
theorem faultingStepChangesNothing : Obligations.FaultingStepChangesNothing := by
  intro s f ⟨hhalted, _⟩ hstep
  rw [standsAfter_of_step_fault hstep]
  refine ⟨rfl, rfl, rfl, rfl, rfl, hhalted, rfl, rfl, rfl, rfl, rfl, not_final_faultedState s f,
    fun k => ?_⟩
  rw [stateAfter_faultedState f hhalted k]
  exact ⟨rfl, step_faultedState f hhalted⟩

/-! ### The invariant in any state the machine stands in -/

/-- The mark a faulting step sets goes on a machine that is not halted, so it keeps the invariant. -/
theorem Invariant.after_standsAfter {s : State} (h : Invariant s) :
    Invariant (standsAfter s (step s)) := by
  cases hstep : step s with
  | next t => exact stepKeepsTheInvariant s t h hstep
  | fault f =>
    have hhalted : s.halted = false := halted_of_step_fault hstep
    exact { h with notBoth := .inr hhalted }
  | refused r => exact h

/-- Settles O49: each attempt to step keeps the invariant, and so does any number of them. -/
theorem standingKeepsTheInvariant : Obligations.StandingKeepsTheInvariant :=
  stateAfter_induction fun _ => Invariant.after_standsAfter

/-! ### Device accesses no rule defines (R317) -/

theorem not_eventAllowed_write_iff (a v : Word) :
    ¬ EventAllowed (.write a v) ↔
      a ≠ 0xF000#16 ∧ a ≠ 0xF003#16 ∧ ¬ (a = 0xF002#16 ∧ (v = 0#16 ∨ v = 1#16)) := by
  rw [EventAllowed, not_or, not_or, and_comm (a := ¬ (_ ∧ _))]

section

variable {rd rs : Reg} {off : Int} {s : State} {ea : Word}

theorem exec_load_undefined (hea : effectiveAddress s rs off = ea) (hwin : InWindow ea)
    (hin : ea ≠ 0xF001#16) (hval : ea ≠ 0xF003#16) :
    exec (.load rd rs off) s = .fault (.ioUndefined ea none) := by
  subst hea
  exact exec_load_of_memRead_error (memRead_undefined s hwin hin hval)

theorem exec_store_undefined (hea : effectiveAddress s rs off = ea) (hwin : InWindow ea)
    (hout : ea ≠ 0xF000#16) (hval : ea ≠ 0xF003#16)
    (hctrl : ¬ (ea = 0xF002#16 ∧ (readReg s rd = 0#16 ∨ readReg s rd = 1#16))) :
    exec (.store rd rs off) s = .fault (.ioUndefined ea (some (readReg s rd))) := by
  subst hea
  exact exec_store_of_memWrite_error
    (memWrite_undefined s hwin ((not_eventAllowed_write_iff _ _).2 ⟨hout, hval, hctrl⟩))

end

/-- Settles O26: each address lies in the window and is none of the registers that take the
access. -/
theorem undefinedDeviceAccesses : Obligations.UndefinedDeviceAccesses := by
  intro rd rs off s ea hea
  refine ⟨?loadOutOrCtrl, ?storeIn, ?storeCtrl, fun hlow hhigh => ?noRegister⟩
  case loadOutOrCtrl =>
    rintro (rfl | rfl) <;> exact exec_load_undefined hea (by decide) (by decide) (by decide)
  case storeIn =>
    rintro rfl
    exact exec_store_undefined hea (by decide) (by decide) (by decide)
      fun ⟨hctrl, _⟩ => absurd hctrl (by decide)
  case storeCtrl =>
    rintro rfl htwo
    refine exec_store_undefined hea (by decide) (by decide) (by decide) ?_
    rintro ⟨-, hv | hv⟩ <;> simp [hv] at htwo
  case noRegister =>
    have hwin : InWindow ea := ⟨by omega, hhigh⟩
    have hne : ∀ d : Word, d.toNat < 0xF004 → ea ≠ d := by
      rintro d hd rfl
      omega
    exact ⟨exec_load_undefined hea hwin (hne _ (by decide)) (hne _ (by decide)),
      exec_store_undefined hea hwin (hne _ (by decide)) (hne _ (by decide))
        fun ⟨hctrl, _⟩ => hne _ (by decide) hctrl⟩

/-! ### Which fault each part of a step meets (R160, R302) -/

theorem fetchRead_eq_error_iff {s : State} {a : Word} {f : Fault} :
    fetchRead s a = .error f ↔
      (a.toNat % 2 = 1 ∧ f = .misalignedFetch a) ∨
      (a.toNat % 2 = 0 ∧ InWindow a ∧ f = .fetchFromIo a) := by
  refine ⟨fetchRead_error, ?_⟩
  rintro (⟨hodd, rfl⟩ | ⟨heven, hwin, rfl⟩)
  · exact fetchRead_odd s hodd
  · exact fetchRead_window s heven hwin

theorem memRead_eq_error_iff {s : State} {a : Word} {f : Fault} :
    memRead s a = .error f ↔
      (a = 0xFFFF#16 ∧ f = .addressWrap a) ∨ (a = 0xEFFF#16 ∧ f = .ioStraddle a) ∨
      (InWindow a ∧ a ≠ 0xF001#16 ∧ a ≠ 0xF003#16 ∧ f = .ioUndefined a none) := by
  constructor
  · intro h
    obtain hlast | hbelow | ⟨hwin, hio⟩ := memRead_error h
    · exact .inl hlast
    · exact .inr (.inl hbelow)
    · obtain ⟨hf, hin, hval⟩ := ioRead_error hio
      exact .inr (.inr ⟨hwin, hin, hval, hf⟩)
  · rintro (⟨ha, rfl⟩ | ⟨ha, rfl⟩ | ⟨hwin, hin, hval, rfl⟩)
    · exact memRead_last s ha
    · exact memRead_belowWindow s ha
    · exact memRead_undefined s hwin hin hval

theorem memWrite_eq_error_iff {s : State} {a v : Word} {f : Fault} :
    memWrite s a v = .error f ↔
      (a = 0xFFFF#16 ∧ f = .addressWrap a) ∨ (a = 0xEFFF#16 ∧ f = .ioStraddle a) ∨
      (InWindow a ∧ ¬ EventAllowed (.write a v) ∧ f = .ioUndefined a (some v)) := by
  constructor
  · intro h
    obtain hlast | hbelow | ⟨hwin, hio⟩ := memWrite_error h
    · exact .inl hlast
    · exact .inr (.inl hbelow)
    · obtain ⟨hf, hnot⟩ := ioWrite_error hio
      exact .inr (.inr ⟨hwin, hnot, hf⟩)
  · rintro (⟨ha, rfl⟩ | ⟨ha, rfl⟩ | ⟨hwin, hnot, rfl⟩)
    · exact memWrite_last s v ha
    · exact memWrite_belowWindow s v ha
    · exact memWrite_undefined s hwin hnot

theorem exec_load_eq_fault_iff {rd rs : Reg} {off : Int} {s : State} {f : Fault} :
    exec (.load rd rs off) s = .fault f ↔
      memRead s (effectiveAddress s rs off) = .error f :=
  ⟨execLoad_fault, exec_load_of_memRead_error⟩

theorem exec_store_eq_fault_iff {rd rs : Reg} {off : Int} {s : State} {f : Fault} :
    exec (.store rd rs off) s = .fault f ↔
      memWrite s (effectiveAddress s rs off) (readReg s rd) = .error f :=
  ⟨execStore_fault, exec_store_of_memWrite_error⟩

/-- The instruction is a LOAD or STORE whose data access raises the fault (R302); `exec_eq_fault_iff`
ties it to `exec`. -/
def DataAccessFaults (i : Instr) (s : State) (f : Fault) : Prop :=
  ∃ (rd rs : Reg) (off : Int), (i = .load rd rs off ∨ i = .store rd rs off) ∧
    let ea := effectiveAddress s rs off
    (ea = 0xFFFF#16 ∧ f = .addressWrap ea) ∨
    (ea = 0xEFFF#16 ∧ f = .ioStraddle ea) ∨
    (InWindow ea ∧ i = .load rd rs off ∧ ea ≠ 0xF001#16 ∧ ea ≠ 0xF003#16 ∧
      f = .ioUndefined ea none) ∨
    (InWindow ea ∧ i = .store rd rs off ∧ ea ≠ 0xF000#16 ∧ ea ≠ 0xF003#16 ∧
      ¬ (ea = 0xF002#16 ∧ (readReg s rd = 0#16 ∨ readReg s rd = 1#16)) ∧
      f = .ioUndefined ea (some (readReg s rd)))

theorem dataAccessFaults_load_iff {rd rs : Reg} {off : Int} {s : State} {f : Fault} :
    DataAccessFaults (.load rd rs off) s f ↔
      memRead s (effectiveAddress s rs off) = .error f := by
  rw [memRead_eq_error_iff]
  constructor
  · rintro ⟨rd', rs', off', hi | hi, hfault⟩ <;> cases hi
    obtain hlast | hbelow | ⟨hwin, -, hundef⟩ | ⟨-, hi, -⟩ := hfault
    · exact .inl hlast
    · exact .inr (.inl hbelow)
    · exact .inr (.inr ⟨hwin, hundef⟩)
    · cases hi
  · intro hfault
    refine ⟨rd, rs, off, .inl rfl, ?_⟩
    obtain hlast | hbelow | ⟨hwin, hundef⟩ := hfault
    · exact .inl hlast
    · exact .inr (.inl hbelow)
    · exact .inr (.inr (.inl ⟨hwin, rfl, hundef⟩))

theorem dataAccessFaults_store_iff {rd rs : Reg} {off : Int} {s : State} {f : Fault} :
    DataAccessFaults (.store rd rs off) s f ↔
      memWrite s (effectiveAddress s rs off) (readReg s rd) = .error f := by
  rw [memWrite_eq_error_iff, not_eventAllowed_write_iff]
  constructor
  · rintro ⟨rd', rs', off', hi | hi, hfault⟩ <;> cases hi
    obtain hlast | hbelow | ⟨-, hi, -⟩ | ⟨hwin, -, hout, hval, hctrl, hf⟩ := hfault
    · exact .inl hlast
    · exact .inr (.inl hbelow)
    · cases hi
    · exact .inr (.inr ⟨hwin, ⟨hout, hval, hctrl⟩, hf⟩)
  · intro hfault
    refine ⟨rd, rs, off, .inr rfl, ?_⟩
    obtain hlast | hbelow | ⟨hwin, ⟨hout, hval, hctrl⟩, hf⟩ := hfault
    · exact .inl hlast
    · exact .inr (.inl hbelow)
    · exact .inr (.inr (.inr ⟨hwin, rfl, hout, hval, hctrl, hf⟩))

/-- R302: the execute phase faults exactly where a data access of LOAD or STORE does. -/
theorem exec_eq_fault_iff {i : Instr} {s : State} {f : Fault} :
    exec i s = .fault f ↔ DataAccessFaults i s f := by
  cases i with
  | load rd rs off => rw [exec_load_eq_fault_iff, dataAccessFaults_load_iff]
  | store rd rs off => rw [exec_store_eq_fault_iff, dataAccessFaults_store_iff]
  | _ =>
    refine ⟨nofun, ?_⟩
    rintro ⟨_, _, _, hi | hi, -⟩ <;> cases hi

/-- The fetch phase changes no general register, hence no effective address and no stored value. -/
theorem dataAccessFaults_afterFetch_iff {i : Instr} {s : State} {w : Word} {f : Fault} :
    DataAccessFaults i (afterFetch s w) f ↔ DataAccessFaults i s f :=
  Iff.rfl

/-- A running machine's step faults in the fetch phase or in the execute phase. -/
theorem step_eq_fault_iff {s : State} {f : Fault} (hrun : Running s) :
    step s = .fault f ↔ fetchRead s s.pc = .error f ∨
      (Fetchable s.pc ∧
        exec (decode (readWord s s.pc)) (afterFetch s (readWord s s.pc)) = .fault f) := by
  constructor
  · intro h
    obtain hmark | ⟨-, hfetch⟩ | ⟨-, hexec⟩ := step_fault h
    · obtain ⟨-, hnone⟩ := hrun
      cases hnone.symm.trans hmark
    · exact .inl hfetch
    · exact .inr hexec
  · rintro (hfetch | ⟨hpc, hexec⟩)
    · exact step_of_fetchRead_error hrun hfetch
    · rw [step_of_fetch hrun hpc, hexec]

/-- Settles O11: the two faults of the fetch phase, then those of the execute phase. -/
theorem faultKindsAndConditions : Obligations.FaultKindsAndConditions := by
  intro s f hrun i
  rw [step_eq_fault_iff hrun, fetchRead_eq_error_iff, exec_eq_fault_iff,
    dataAccessFaults_afterFetch_iff, or_assoc]
  exact or_congr_right (or_congr_right and_assoc)

/-! ### What an observer reads of a device write (R312, R315) -/

theorem writesTo_append (a : Word) (es es' : List IoEvent) :
    writesTo a (es ++ es') = writesTo a es ++ writesTo a es' :=
  List.filterMap_append ..

theorem writesTo_append_write_self (a v : Word) (es : List IoEvent) :
    writesTo a (es ++ [.write a v]) = writesTo a es ++ [v] := by
  rw [writesTo_append]
  simp [writesTo]

theorem writesTo_append_write_other {a b : Word} (v : Word) (h : b ≠ a) (es : List IoEvent) :
    writesTo a (es ++ [.write b v]) = writesTo a es := by
  rw [writesTo_append]
  simp [writesTo, h]

theorem consoleOutput_append_write_self (v : Word) (es : List IoEvent) :
    consoleOutput (es ++ [.write 0xF000#16 v]) = consoleOutput es ++ [charOf v] := by
  rw [consoleOutput, writesTo_append_write_self, List.map_append, List.map_singleton, consoleOutput]

theorem consoleOutput_append_write_other {b : Word} (v : Word) (h : b ≠ 0xF000#16)
    (es : List IoEvent) : consoleOutput (es ++ [.write b v]) = consoleOutput es := by
  rw [consoleOutput, writesTo_append_write_other v h, consoleOutput]

theorem timerSetting_append_write_self (v : Word) (es : List IoEvent) :
    timerSetting (es ++ [.write 0xF002#16 v]) = some (decide (v = 1#16)) := by
  rw [timerSetting, writesTo_append_write_self, List.getLast?_concat, Option.map_some]

theorem timerSetting_append_write_other {b : Word} (v : Word) (h : b ≠ 0xF002#16)
    (es : List IoEvent) : timerSetting (es ++ [.write b v]) = timerSetting es := by
  rw [timerSetting, writesTo_append_write_other v h, timerSetting]

/-- Settles O27: a STORE to plain storage records nothing, and one to a device is the last write an
observer reads off the record. -/
theorem consoleAndTimerOutput : Obligations.ConsoleAndTimerOutput := by
  intro rd rs off s t hexec
  obtain ⟨hplain, rfl⟩ | ⟨-, -, rfl⟩ := exec_store_cases hexec
  · have hout : ∀ d : Word, InWindow d → effectiveAddress s rs off ≠ d := by
      rintro d hd rfl
      exact hplain.not_inWindow hd
    exact ⟨fun h => absurd h (hout _ (by decide)), fun h => absurd h (hout _ (by decide)),
      fun _ _ => ⟨rfl, rfl⟩⟩
  · rw [recordEvent_events]
    refine ⟨fun h => ?console, fun h => ?timer, fun hconsole htimer => ?other⟩
    case console =>
      rw [h]
      exact ⟨consoleOutput_append_write_self _ _, timerSetting_append_write_other _ (by decide) _⟩
    case timer =>
      rw [h]
      exact ⟨consoleOutput_append_write_other _ (by decide) _, timerSetting_append_write_self _ _⟩
    case other =>
      exact ⟨consoleOutput_append_write_other _ hconsole _,
        timerSetting_append_write_other _ htimer _⟩

end Sys2Proof.Machine

/-! ## Moving a program (70_reset_and_hazards.md R331)

The fetch phase and the branches are all that reads PC, and a branch adds its offset to it. -/

namespace Sys2Proof.Machine

/-! ### What does not see PC -/

@[simp] theorem readReg_movePc (d : Word) (s : State) (i : Reg) :
    readReg (movePc d s) i = readReg s i := rfl

@[simp] theorem readWord_movePc (d : Word) (s : State) (a : Word) :
    readWord (movePc d s) a = readWord s a := rfl

@[simp] theorem effectiveAddress_movePc (d : Word) (s : State) (rs : Reg) (off : Int) :
    effectiveAddress (movePc d s) rs off = effectiveAddress s rs off := rfl

theorem ioRead_movePc (d : Word) (s : State) (a : Word) :
    ioRead (movePc d s) a = (ioRead s a).map (Prod.map id (movePc d)) := by
  unfold ioRead
  split <;> rfl

theorem ioWrite_movePc (d : Word) (s : State) (a v : Word) :
    ioWrite (movePc d s) a v = (ioWrite s a v).map (movePc d) := by
  unfold ioWrite
  split
  case h_2 => split <;> rfl
  all_goals rfl

theorem memRead_movePc (d : Word) (s : State) (a : Word) :
    memRead (movePc d s) a = (memRead s a).map (Prod.map id (movePc d)) := by
  unfold memRead
  split_ifs
  · rfl
  · rfl
  · exact ioRead_movePc d s a
  · rfl

theorem memWrite_movePc (d : Word) (s : State) (a v : Word) :
    memWrite (movePc d s) a v = (memWrite s a v).map (movePc d) := by
  unfold memWrite
  split_ifs
  · rfl
  · rfl
  · exact ioWrite_movePc d s a v
  · rfl

/-! ### What adds to PC -/

theorem setPc_movePc (d off : Word) (s : State) :
    { movePc d s with pc := (movePc d s).pc + off } = movePc d { s with pc := s.pc + off } :=
  congrArg (fun p => { s with pc := p }) (add_right_comm s.pc d off)

theorem afterFetch_movePc (d : Word) (s : State) (w : Word) :
    afterFetch (movePc d s) w = movePc d (afterFetch s w) :=
  setPc_movePc d 2#16 { s with ir := w }

theorem branchIf_movePc (d : Word) (taken : Bool) (off : Int) (s : State) :
    branchIf taken off (movePc d s) = Outcome.movePc d (branchIf taken off s) := by
  cases taken with
  | false => rfl
  | true => exact congrArg Host.Outcome.next (setPc_movePc d (immWord off) s)

/-! ### The instructions and the step -/

theorem execLoad_movePc (d : Word) (rd rs : Reg) (off : Int) (s : State) :
    execLoad rd rs off (movePc d s) = Outcome.movePc d (execLoad rd rs off s) := by
  unfold execLoad
  rw [effectiveAddress_movePc, memRead_movePc]
  cases memRead s (effectiveAddress s rs off) <;> rfl

theorem execStore_movePc (d : Word) (rd rs : Reg) (off : Int) (s : State) :
    execStore rd rs off (movePc d s) = Outcome.movePc d (execStore rd rs off s) := by
  unfold execStore
  rw [effectiveAddress_movePc, readReg_movePc, memWrite_movePc]
  cases memWrite s (effectiveAddress s rs off) (readReg s rd) <;> rfl

/-- The execute phase does the same at a moved PC. -/
theorem exec_movePc (d : Word) (i : Instr) (s : State) :
    exec i (movePc d s) = Outcome.movePc d (exec i s) := by
  cases i with
  | load rd rs off => exact execLoad_movePc d rd rs off s
  | store rd rs off => exact execStore_movePc d rd rs off s
  | branch off => exact branchIf_movePc d true off s
  | beq off => exact branchIf_movePc d (takenEq s.flags) off s
  | bne off => exact branchIf_movePc d (takenNe s.flags) off s
  | blt off => exact branchIf_movePc d (takenLt s.flags) off s
  | _ => rfl

/-- So does a whole step, faults of the execute phase included, where the same word is fetched. -/
theorem step_movePc {d : Word} {s : State} (hrun : Running s) (hpc : Fetchable s.pc)
    (hpc' : Fetchable (s.pc + d)) (hword : readWord s (s.pc + d) = readWord s s.pc) :
    step (movePc d s) = Outcome.movePc d (step s) := by
  have hrun' : Running (movePc d s) := hrun
  rw [step_of_fetch hrun hpc, step_of_fetch hrun' hpc', readWord_movePc, movePc_pc, hword,
    afterFetch_movePc, exec_movePc]

/-- Settles O47: the execute phase and the step commute with moving PC. -/
theorem programsArePositionIndependent : Obligations.ProgramsArePositionIndependent := by
  refine ⟨exec_movePc, fun d s hpc hpc' hlow hhigh t hstep => ⟨movePc d t, ?_, rfl⟩⟩
  obtain ⟨hrun, -, -⟩ := step_next hstep
  have hword : readWord s (s.pc + d) = readWord s s.pc := by
    rw [readWord, readWord, hlow, hhigh]
  rw [step_movePc hrun hpc hpc' hword, hstep, Outcome.movePc]

end Sys2Proof.Machine

/-! ## The launch (70_reset_and_hazards.md R331 to R333) -/

namespace Sys2Proof.Machine

/-! ### Loading an image into a memory -/

/-- The host places the cells of an image, in order, into memory that may already hold others. -/
def Memory.placeAll (m : Memory) (image : List Host.Cell) : Memory :=
  image.foldl (fun m c => m.place c.1 c.2) m

theorem loadImage_eq_placeAll (image : List Host.Cell) :
    loadImage image = Memory.placeAll [] image := rfl

@[simp] theorem Memory.placeAll_nil (m : Memory) : m.placeAll [] = m := rfl

@[simp] theorem Memory.placeAll_cons (m : Memory) (c : Host.Cell) (image : List Host.Cell) :
    m.placeAll (c :: image) = (m.place c.1 c.2).placeAll image := rfl

theorem Memory.wf_placeAll {m : Memory} (h : m.wf = true) (image : List Host.Cell) :
    (m.placeAll image).wf = true := by
  induction image generalizing m with
  | nil => exact h
  | cons c image ih => exact ih (Memory.wf_place c.1 c.2 h)

/-- Only plain storage takes a byte the host places (R333). -/
theorem Memory.lookup_place (m : Memory) (a b : Nat) (v : Byte) :
    (m.place a v).lookup b = if IsStorage a ∧ b = a then some v else m.lookup b := by
  unfold Memory.place
  split
  case isTrue ha =>
    rw [Memory.lookup_insert]
    exact if_congr (and_iff_right ha).symm rfl rfl
  case isFalse ha => exact (if_neg fun h => ha h.1).symm

/-- An image lists no byte at an address it does not name, nor outside plain storage. -/
theorem Memory.lookup_placeAll_other (m : Memory) {image : List Host.Cell} {a : Nat}
    (h : ¬ IsStorage a ∨ ∀ c ∈ image, c.1 ≠ a) : (m.placeAll image).lookup a = m.lookup a := by
  induction image generalizing m with
  | nil => rfl
  | cons c image ih =>
    have hhead : ¬ (IsStorage c.1 ∧ a = c.1) := by
      rintro ⟨hc, rfl⟩
      exact h.elim (· hc) fun hne => hne c (List.mem_cons_self ..) rfl
    have htail : ¬ IsStorage a ∨ ∀ c ∈ image, c.1 ≠ a :=
      h.imp_right fun hne c hc => hne c (List.mem_cons_of_mem _ hc)
    rw [Memory.placeAll_cons, ih _ htail, Memory.lookup_place, if_neg hhead]

/-- Each byte of an image without repeats is the one listed at its address (R333). -/
theorem Memory.lookup_placeAll_self (m : Memory) {image : List Host.Cell} {c : Host.Cell}
    (hnodup : (image.map Prod.fst).Nodup) (hc : c ∈ image) (hstorage : IsStorage c.1) :
    (m.placeAll image).lookup c.1 = some c.2 := by
  induction image generalizing m with
  | nil => cases hc
  | cons d image ih =>
    obtain ⟨hnot, hnodup⟩ := List.nodup_cons.1 hnodup
    rw [Memory.placeAll_cons]
    cases hc with
    | head =>
      have hne : ∀ e ∈ image, e.1 ≠ c.1 := fun e he heq =>
        hnot (heq ▸ List.mem_map_of_mem he)
      rw [Memory.lookup_placeAll_other _ (.inr hne), Memory.lookup_place, if_pos ⟨hstorage, rfl⟩]
    | tail _ hc => exact ih _ hnodup hc

theorem readByte_of_lookup_eq_some {s : State} {a : Nat} {v : Byte}
    (h : s.mem.lookup a = some v) : readByte s a = v := by
  rw [readByte, Memory.byteAt, h, Option.getD_some]

theorem readByte_of_lookup_eq_none {s : State} {a : Nat} (h : s.mem.lookup a = none) :
    readByte s a = Config.startByte a := by
  rw [readByte, Memory.byteAt, h, Option.getD_none]

/-! ### The launched state -/

theorem launch_mem (l : Launch) : (State.launch l).mem = Memory.placeAll [] l.image :=
  loadImage_eq_placeAll l.image

/-- Settles O51: loading an image keeps memory canonical, and nothing is marked, recorded or drawn
at launch. -/
theorem launchMeetsTheInvariant : Obligations.LaunchMeetsTheInvariant := fun l => {
  memory := Memory.wf_placeAll Memory.wf_nil l.image
  notBoth := .inl rfl
  allowed := nofun
  consoleDraws := rfl
  timerDraws := rfl }

/-- Settles O53: a launch may name any register values, and memory lists the bytes of the image and
no others. -/
theorem launchStateIsAsGiven : Obligations.LaunchStateIsAsGiven := by
  refine ⟨fun regs pc sp ir f => ?_, fun l => ⟨rfl, rfl, rfl, rfl, fun hnodup c hc hstorage => ?_,
    fun a ha => ?_⟩⟩
  · exact ⟨{ entryPc := pc, image := [], consoleIn := [], timerIn := [], regs, sp, ir, flags := f },
      rfl, rfl, rfl, rfl, rfl⟩
  · apply readByte_of_lookup_eq_some
    rw [launch_mem, Memory.lookup_placeAll_self _ hnodup hc hstorage]
  · have hnone : (State.launch l).mem.lookup a = none := by
      rw [launch_mem, Memory.lookup_placeAll_other _ ha, Memory.lookup]
    exact ⟨hnone, readByte_of_lookup_eq_none hnone⟩

end Sys2Proof.Machine

/-! ## The word the host lays at PC (70_reset_and_hazards.md R340) -/

namespace Sys2Proof.Machine

theorem withFetchWord_toNat (s : State) (w : Word) :
    s.withFetchWord 16 w.toNat = placeAtPc s w := by
  rw [State.withFetchWord, tableWord_toNat]

section

variable {s : State} (hpc : Fetchable s.pc)
include hpc

/-- At a fetchable PC both bytes of the word are placed, as a STORE there would write them. -/
theorem placeAtPc_eq_writeWord (w : Word) : placeAtPc s w = writeWord s s.pc w := by
  obtain ⟨hlow, hhigh⟩ := hpc.storage
  rw [placeAtPc, writeWord, Memory.place, if_pos hhigh, Memory.place, if_pos hlow]

theorem step_placeAtPc (hrun : Running s) (w : Word) :
    step (placeAtPc s w) = exec (decode w) (afterFetch (placeAtPc s w) w) := by
  have hword : readWord (placeAtPc s w) s.pc = w := by
    rw [placeAtPc_eq_writeWord hpc, readWord_writeWord_self]
  have hrun' : Running (placeAtPc s w) := hrun
  rw [step_of_fetch hrun' hpc, placeAtPc_pc, hword]

end

/-- Settles O55: laying a word at a fetchable PC writes its two bytes there, and the step fetches
them. -/
theorem hostWordRunsNext : Obligations.HostWordRunsNext := by
  intro s w hrun hpc
  rw [withFetchWord_toNat]
  refine ⟨step_placeAtPc hpc hrun w, decodeTableWord_toNat w, ?_⟩
  rw [placeAtPc_eq_writeWord hpc]
  exact writeWord_memoryUnchangedBut s s.pc w

end Sys2Proof.Machine

/-! ## The words of the test vectors (95_test_vectors.md A5, B1, B5) -/

namespace Sys2Proof.Machine

/-- Settles O1: each word's opcode picks its way to decode, and the fields read there are the
operands listed. -/
theorem specWordsDecodeAsListed : Obligations.SpecWordsDecodeAsListed :=
  ⟨(DecodesTo.add rfl).decode_eq, (DecodesTo.add rfl).decode_eq, (DecodesTo.add rfl).decode_eq,
    (DecodesTo.addi rfl).decode_eq, (DecodesTo.sub rfl).decode_eq, (DecodesTo.subi rfl).decode_eq,
    (DecodesTo.and rfl).decode_eq, (DecodesTo.or rfl).decode_eq, (DecodesTo.xor rfl).decode_eq,
    (DecodesTo.load rfl).decode_eq, (DecodesTo.store rfl).decode_eq,
    (DecodesTo.loadi rfl).decode_eq, (DecodesTo.branch rfl).decode_eq,
    (DecodesTo.beq rfl).decode_eq, (DecodesTo.bne rfl).decode_eq, (DecodesTo.blt rfl).decode_eq,
    (DecodesTo.nop rfl).decode_eq, (DecodesTo.halt rfl).decode_eq⟩

end Sys2Proof.Machine
